-- ==== Sys2Proof/Word.lean ====
section
/-! DEFINITION. The word types of the block: the 32-bit header word of the command port (30_encoding.md R80),
the byte of BUF and of a payload (00_scope.md R7), the 8-bit pin identifier (10_state.md R22), and the level of a
line (00_scope.md R11). -/

namespace Sys2Proof

/-- A header word of the command port: bit 31 is its most significant bit and bit 0 its least (R81). -/
abbrev Word := BitVec 32

/-- A byte: bit 0 is the least significant bit (R8). -/
abbrev Byte := BitVec 8

/-- A platform pin identifier, 8 bits unsigned (R22). The block only compares two of them for equality (R66). -/
abbrev PinId := BitVec 8

/-- A line level: `false` is 0, "low", and `true` is 1, "high" (R11). -/
abbrev Level := Bool

end Sys2Proof
end

