-- ==== Sys2Proof/Config.lean ====
section
/-! DEFINITION. The parameters a model of the block takes (00_scope.md R6): what this hardware fixes, and the one
value it leaves open. `N` and the pin identifiers are operands of CONSTRUCT; `K` is an argument of the observer. -/

namespace Sys2Proof

/-- The role of one of the three channel lines (10_state.md R28). -/
inductive LineRole where
  | data
  | clock
  | latch
  deriving DecidableEq, Repr

/-- `N_MAX`, the largest legal chain length (R6; 92_eei_decisions.md D6). -/
def Config.nMax : Nat := 4096

/-- `HIGH_NOUPDATE_TRANSMITS`: whether SETALLHIGHNOUPDATE transmits. "Boolean, `false` for this hardware" (R6, R143,
90_conflicts.md C1; log 6). -/
def Config.highNoUpdateTransmits : Bool := false

/-- `INIT_LEVEL`: the level on each line before CONSTRUCT drives it, "a draw: unknown, any of {0,1} per line" (R6,
70_reset_and_hazards.md R201). A FREE VALUE: it has no body, and its first argument numbers the reset it belongs to
(State's `draws`), so that every reset draws afresh (log 5). -/
opaque Config.initLevel : Nat → LineRole → Level

end Sys2Proof
end

