-- ==== Sys2Proof/Syntax.lean ====
section
/-! DEFINITION. The eleven commands of spec/opcode_table.json (30_encoding.md R87), with the operands R83 to R86
assemble and R93 writes. Where a type can hold exactly what a field can (a 16-bit length, an 8-bit identifier, a 1-bit
value), it does; WellFormed.lean checks the rest. -/

namespace Sys2Proof

/-- One command of the block. -/
inductive Instr where
  /-- CONSTRUCT: `n` is LEN, the chain length (R84); the payload is (DATA, CLOCK, LATCH) (R86, R110). -/
  | construct (n : BitVec 16) (data clock latch : PinId)
  /-- SETALL: `values` is the payload, and LEN is its length (R84, R86, R120). -/
  | setAll (values : List Byte)
  /-- GETALL (R122). -/
  | getAll
  /-- SET: `pin` is PIN sign-extended (R85), `v` is V (R83, R130). -/
  | setPin (pin : Int) (v : Level)
  /-- GET (R132). -/
  | getPin (pin : Int)
  /-- SETNOUPDATE (R134). -/
  | setNoUpdate (pin : Int) (v : Level)
  /-- SETALLLOW (R140). -/
  | setAllLow
  /-- SETALLHIGH (R141). -/
  | setAllHigh
  /-- SETALLLOWNOUPDATE (R142). -/
  | setAllLowNoUpdate
  /-- SETALLHIGHNOUPDATE (R143). -/
  | setAllHighNoUpdate
  /-- UPDATEREGISTERS (R150). -/
  | updateRegisters
  deriving DecidableEq, Repr

end Sys2Proof
end

