-- ==== Sys2Proof/WellFormed.lean ====
section
/-! DEFINITION. Which commands have an encoding: those whose operands the assembler of 30_encoding.md R93 accepts. -/

namespace Sys2Proof

/-- A pin operand the 16-bit two's complement PIN field can hold (R85); R93 refuses "`p` outside -32768 to 32767". -/
def encodablePin (p : Int) : Bool := decide (-32768 ≤ p ∧ p ≤ 32767)

/-- A payload the 16-bit LEN field can count (R84); R93 refuses "A SETALL list longer than 65535 bytes". -/
def encodablePayload (values : List Byte) : Bool := decide (values.length ≤ 65535)

/-- The command has an encoding (R93). Its other refusals (`n`, `v` and the identifiers out of range) cannot be
written: the operand's type holds exactly the field's values. -/
def wellFormed : Instr → Bool
  | .construct _ _ _ _ => true
  | .setAll values => encodablePayload values
  | .getAll => true
  | .setPin p _ => encodablePin p
  | .getPin p => encodablePin p
  | .setNoUpdate p _ => encodablePin p
  | .setAllLow => true
  | .setAllHigh => true
  | .setAllLowNoUpdate => true
  | .setAllHighNoUpdate => true
  | .updateRegisters => true

end Sys2Proof
end

