-- ==== Sys2Proof/Decode.lean ====
section
/-! DEFINITION. Decoding a transaction of the command port, total on every header word and every byte list
(30_encoding.md R81 to R91), and after it the encoder (R93), written from the same tables. -/

namespace Sys2Proof

/-! ## Fields of the header word -/

/-- `OPC = w[31:28]` (R82). -/
def opcodeField (w : Word) : BitVec 4 := w.extractLsb' 28 4

/-- `LEN`, the field `w[15:0]` read as unsigned where it is counted (R84). -/
def lenField (w : Word) : BitVec 16 := w.extractLsb' 0 16

/-- `PIN = sint(w[15:0])`, sign-extended (R85). -/
def pinField (w : Word) : Int := (w.extractLsb' 0 16).toInt

/-- `V = w[16]` (R83). -/
def valueField (w : Word) : Level := w.getLsbD 16

/-- `PayloadLen(w)`: it depends only on OPC and `w[15:0]` (R90). -/
def payloadLen (w : Word) : Nat :=
  if opcodeField w = 0x1#4 then 3
  else if opcodeField w = 0x2#4 then (lenField w).toNat
  else 0

/-! ## The opcode map -/

/-- The mnemonic a header word selects (R87). -/
inductive Opcode where
  | construct | setAll | getAll | setPin | getPin | setNoUpdate
  | setAllLow | setAllHigh | setAllLowNoUpdate | setAllHighNoUpdate | updateRegisters
  deriving DecidableEq, Repr

/-- One row of R88: "A word selects a command when `(w & mask) == match`". -/
structure OpcodeRow where
  opcode : Opcode
  pattern : Word
  mask : Word
  deriving DecidableEq, Repr

/-- The table of R88, row by row. -/
def opcodeRows : List OpcodeRow :=
  [ ⟨.construct,          0x10000000#32, 0xFFFF0000#32⟩,
    ⟨.setAll,             0x20000000#32, 0xFFFF0000#32⟩,
    ⟨.getAll,             0x30000000#32, 0xFFFFFFFF#32⟩,
    ⟨.setPin,             0x40000000#32, 0xFFFE0000#32⟩,
    ⟨.getPin,             0x50000000#32, 0xFFFF0000#32⟩,
    ⟨.setNoUpdate,        0x60000000#32, 0xFFFE0000#32⟩,
    ⟨.setAllLow,          0x70000000#32, 0xFFFFFFFF#32⟩,
    ⟨.setAllHigh,         0x80000000#32, 0xFFFFFFFF#32⟩,
    ⟨.setAllLowNoUpdate,  0x90000000#32, 0xFFFFFFFF#32⟩,
    ⟨.setAllHighNoUpdate, 0xA0000000#32, 0xFFFFFFFF#32⟩,
    ⟨.updateRegisters,    0xB0000000#32, 0xFFFFFFFF#32⟩ ]

/-- The row selects the word (R88). -/
def OpcodeRow.selects (r : OpcodeRow) (w : Word) : Bool := w &&& r.mask == r.pattern

/-- The opcodes 0x0, 0xC, 0xD, 0xE and 0xF are reserved (R89). -/
def reservedOpcode (opc : BitVec 4) : Bool :=
  opc == 0x0#4 || opc == 0xC#4 || opc == 0xD#4 || opc == 0xE#4 || opc == 0xF#4

/-- Why a header word is illegal (R89). -/
inductive IllegalCause where
  /-- OPC is 0x0, 0xC, 0xD, 0xE or 0xF. -/
  | reservedOpcode
  /-- OPC is 0x1 to 0xB and a bit its format reserves is 1. -/
  | reservedBit
  deriving DecidableEq, Repr

/-- `Decode(w)` of R91, the operands apart: the command the word selects, or why it is illegal. -/
def selectCommand (w : Word) : Except IllegalCause Opcode :=
  if reservedOpcode (opcodeField w) then .error .reservedOpcode
  else
    match opcodeRows.find? (fun r => r.selects w) with
    | some r => .ok r.opcode
    | none => .error .reservedBit

/-! ## Transactions -/

/-- The command with its operands (R83 to R86). `none` where the payload does not have the shape R86 gives it. -/
def assemble (op : Opcode) (w : Word) (payload : List Byte) : Option Instr :=
  match op with
  | .construct =>
    match payload with
    | [d, c, l] => some (.construct (lenField w) d c l)
    | _ => none
  | .setAll => some (.setAll payload)
  | .getAll => some .getAll
  | .setPin => some (.setPin (pinField w) (valueField w))
  | .getPin => some (.getPin (pinField w))
  | .setNoUpdate => some (.setNoUpdate (pinField w) (valueField w))
  | .setAllLow => some .setAllLow
  | .setAllHigh => some .setAllHigh
  | .setAllLowNoUpdate => some .setAllLowNoUpdate
  | .setAllHighNoUpdate => some .setAllHighNoUpdate
  | .updateRegisters => some .updateRegisters

/-- What a transaction decodes to. -/
inductive Decoded where
  /-- A command. -/
  | command (i : Instr)
  /-- An illegal header word (R89); its payload is consumed all the same (R90). -/
  | illegal (cause : IllegalCause)
  /-- The payload is not PayloadLen(w) bytes. "The transport delivers exactly `PayloadLen(w)` bytes" (R90), so no
  transaction of the host is this. -/
  | misframed
  deriving DecidableEq, Repr

/-- Decode a transaction: header word and payload (R80, R90, R91). -/
def decodeTransaction (w : Word) (payload : List Byte) : Decoded :=
  if payload.length = payloadLen w then
    match selectCommand w with
    | .error c => .illegal c
    | .ok op =>
      match assemble op w payload with
      | some i => .command i
      | none => .misframed
  else .misframed

/-! ## The byte transport -/

/-- The header word as the transport sends it, most significant byte first (R81). -/
def headerBytes (w : Word) : List Byte :=
  [w.extractLsb' 24 8, w.extractLsb' 16 8, w.extractLsb' 8 8, w.extractLsb' 0 8]

/-- The next transaction of a byte stream and the bytes after it (R81, R90). `none`: not all of it is there yet. -/
def receive : List Byte → Option (Word × List Byte × List Byte)
  | b3 :: b2 :: b1 :: b0 :: rest =>
    let w : Word := b3 ++ b2 ++ b1 ++ b0
    if payloadLen w ≤ rest.length then
      some (w, rest.take (payloadLen w), rest.drop (payloadLen w))
    else none
  | _ => none

/-- What a byte stream begins with. -/
inductive StreamHead where
  /-- A command, and the bytes after its transaction. -/
  | command (i : Instr) (rest : List Byte)
  /-- A transaction whose header word is illegal (R89), and the bytes after it. -/
  | illegal (cause : IllegalCause) (rest : List Byte)
  /-- Less than one transaction. -/
  | incomplete
  deriving DecidableEq, Repr

/-- Decode the first transaction of a byte stream. -/
def decode (bytes : List Byte) : StreamHead :=
  match receive bytes with
  | none => .incomplete
  | some (w, payload, rest) =>
    match decodeTransaction w payload with
    | .command i => .command i rest
    | .illegal c => .illegal c rest
    | .misframed => .incomplete

/-! ## The encoder -/

/-- The low half of a header word. -/
def lowHalf (x : BitVec 16) : Word := x.setWidth 32

/-- `v << 16`, the V field in its place (R83). -/
def valueBit (v : Level) : Word := (BitVec.ofBool v).setWidth 32 <<< 16

/-- The header word of a command, by the assembler's table (R93). -/
def encodeHeader : Instr → Word
  | .construct n _ _ _ => 0x10000000#32 ||| lowHalf n
  | .setAll values => 0x20000000#32 ||| lowHalf (BitVec.ofNat 16 values.length)
  | .getAll => 0x30000000#32
  | .setPin p v => 0x40000000#32 ||| valueBit v ||| lowHalf (BitVec.ofInt 16 p)
  | .getPin p => 0x50000000#32 ||| lowHalf (BitVec.ofInt 16 p)
  | .setNoUpdate p v => 0x60000000#32 ||| valueBit v ||| lowHalf (BitVec.ofInt 16 p)
  | .setAllLow => 0x70000000#32
  | .setAllHigh => 0x80000000#32
  | .setAllLowNoUpdate => 0x90000000#32
  | .setAllHighNoUpdate => 0xA0000000#32
  | .updateRegisters => 0xB0000000#32

/-- The payload of a command (R86, R93). -/
def encodePayload : Instr → List Byte
  | .construct _ d c l => [d, c, l]
  | .setAll values => values
  | .getAll => []
  | .setPin _ _ => []
  | .getPin _ => []
  | .setNoUpdate _ _ => []
  | .setAllLow => []
  | .setAllHigh => []
  | .setAllLowNoUpdate => []
  | .setAllHighNoUpdate => []
  | .updateRegisters => []

/-- The bytes of a command on a byte transport: its header word, then its payload (R81, R93). -/
def encode (i : Instr) : List Byte := headerBytes (encodeHeader i) ++ encodePayload i

/-! ## The numbering of spec/opcode_table.json -/

/-- The header word of the bits `w`, numbered as the opcode table numbers them: bits 31..0. -/
def tableHeader (nbits w : Nat) : Word := BitVec.ofNat 32 (w % 2 ^ nbits)

/-- The payload of the bits `w`: payload byte j stands in bits 8j+39..8j+32, and every bit above `nbits` is 0. -/
def tablePayload (nbits w : Nat) : List Byte :=
  (List.range (payloadLen (tableHeader nbits w))).map
    fun j => BitVec.ofNat 8 ((w % 2 ^ nbits) / 2 ^ (32 + 8 * j))

/-- The command the decoder reads from the bits `w`, sent as the transport sends them. -/
def decodeTableWord (nbits w : Nat) : Option Instr :=
  match decode (headerBytes (tableHeader nbits w) ++ tablePayload nbits w) with
  | .command i [] => some i
  | _ => none

end Sys2Proof
end

