-- ==== Sys2Proof/Machine/State.lean ====
section
/-! DEFINITION. The state of the block as plain data: the tuple `(PHASE, CFG, BUF, LINES, STATUS, TRACE)` of
10_state.md, and three fields of the model's own (the port's inputs, the responses sent, the index of the INIT_LEVEL
draw). Its value after reset (70_reset_and_hazards.md R200), and the reasons a step can stop. -/

namespace Sys2Proof.Machine

/-- CFG, the configuration register (10_state.md R22). -/
structure ChannelConfig where
  /-- `CFG.N`, the chain length: 16 bits unsigned. -/
  n : BitVec 16
  /-- `CFG.DATA`, the identifier of the serial data line. -/
  data : PinId
  /-- `CFG.CLOCK`, the identifier of the clock line. -/
  clock : PinId
  /-- `CFG.LATCH`, the identifier of the latch line. -/
  latch : PinId
  deriving DecidableEq, Repr

/-- `CFG.N` read as the number of chips, which is the number of bytes of BUF (R22). -/
def ChannelConfig.length (cfg : ChannelConfig) : Nat := cfg.n.toNat

/-- PHASE (10_state.md R20), with CFG (R22) and BUF (R24). While UNCONSTRUCTED, "CFG holds no value" and "BUF does not
exist"; so they stand in the constructor of READY and nowhere else (log 7). -/
inductive Phase where
  | unconstructed
  | ready (cfg : ChannelConfig) (buf : List Byte)
  deriving DecidableEq, Repr

/-- `LINES[r].mode` (10_state.md R28). -/
inductive LineMode where
  | unset
  | output
  deriving DecidableEq, Repr

/-- `LINES[r].level`, "either `unknown` or a bit" (10_state.md R28). -/
inductive LineLevel where
  | unknown
  | driven (level : Level)
  deriving DecidableEq, Repr

/-- `LINES[r]` (10_state.md R28). -/
structure Line where
  mode : LineMode
  level : LineLevel
  deriving DecidableEq, Repr

/-- LINES, the state of the three channel lines (10_state.md R28). -/
structure Lines where
  data : Line
  clock : Line
  latch : Line
  deriving DecidableEq, Repr

/-- `LINES[r]` for a role r. -/
def Lines.line (l : Lines) : LineRole → Line
  | .data => l.data
  | .clock => l.clock
  | .latch => l.latch

/-- STATUS (10_state.md R29). -/
structure Status where
  /-- `STATUS.LAST`, the status code of the most recent command. -/
  last : Byte
  /-- `STATUS.CAUSE`, its cause code. -/
  cause : Byte
  /-- `STATUS.ERR_SEEN`, sticky: some command since reset ended in an error. -/
  errSeen : Bool
  deriving DecidableEq, Repr

/-- An event of TRACE (10_state.md R30). -/
inductive LineEvent where
  /-- The block called `configureOutput(id)`. -/
  | pinMode (id : PinId)
  /-- The block called `writeLevel(id, level)`. -/
  | write (id : PinId) (level : Level)
  deriving DecidableEq, Repr

/-- A response on the command port (30_encoding.md R92). -/
structure Response where
  last : Byte
  cause : Byte
  data : List Byte
  deriving DecidableEq, Repr

/-- What the host does to the block (log 1). -/
inductive HostInput where
  /-- A transaction on the command port: a header word and its payload (30_encoding.md R80). -/
  | transaction (header : Word) (payload : List Byte)
  /-- The reset input, or the destruction of the controller (70_reset_and_hazards.md R200, R202). -/
  | reset
  deriving DecidableEq, Repr

/-- The causes of ConfigurationError (60_exceptions.md R181). -/
inductive ConfigCause where
  /-- `LEN = 0`. -/
  | lengthZero
  /-- `LEN > N_MAX`. -/
  | lengthTooLarge
  /-- Two of the three pin identifiers are equal. -/
  | pinCollision
  /-- CONSTRUCT while READY. -/
  | alreadyConstructed
  deriving DecidableEq, Repr

/-- The errors a command can end with (60_exceptions.md R180). -/
inductive CommandError where
  | configuration (cause : ConfigCause)
  | range
  | sizeMismatch
  | illegalCommand (cause : IllegalCause)
  | notConstructed
  deriving DecidableEq, Repr

/-- The state of the block, with what the host has sent it and what it has answered. -/
structure State where
  /-- PHASE, CFG and BUF (R20, R22, R24). -/
  phase : Phase
  /-- LINES (R28). -/
  lines : Lines
  /-- STATUS (R29). -/
  status : Status
  /-- TRACE, oldest event first (R30). -/
  trace : List LineEvent
  /-- The model's own (log 1): what the host has sent and the block has not taken, oldest first (R80). -/
  port : List HostInput
  /-- The model's own (log 2): the responses the block has sent, oldest first (R80, R92). -/
  responses : List Response
  /-- The model's own (log 5): how many resets the block has taken; it numbers the INIT_LEVEL draw. -/
  draws : Nat
  deriving DecidableEq, Repr

/-- Why a step stops. No command raises one: an error of the block is a response (60_exceptions.md R185, R190). -/
inductive Fault where
  /-- Raised by `step` on a transaction whose payload is not `PayloadLen(header)` bytes. The transport delivers exactly
  that many (30_encoding.md R90), so no host sends it. SAFE: the model stops where the spec describes no run (log 4). -/
  | payloadNotAsFramed
  deriving DecidableEq, Repr

/-- Why an instruction has no meaning. -/
inductive Refusal where
  /-- Raised by an arm of `exec` that has no meaning yet; no arm is one. SAFE: the model stops. -/
  | notModelled (mnemonic : String)
  deriving DecidableEq, Repr

/-- What a command or a step answers. -/
abbrev Result := Host.Outcome State Fault Refusal

/-- `LINES[r]` after reset (R200). -/
def Line.reset : Line := { mode := .unset, level := .unknown }

/-- LINES after reset (R200). -/
def Lines.reset : Lines := { data := .reset, clock := .reset, latch := .reset }

/-- STATUS after reset (R29, R200). -/
def Status.reset : Status := { last := 0x00#8, cause := 0x00#8, errSeen := false }

/-- The block right after power-on (70_reset_and_hazards.md R200, R201), with nothing sent to it (log 1). -/
def State.reset : State :=
  { phase := .unconstructed
    lines := .reset
    status := .reset
    trace := []
    port := []
    responses := []
    draws := 0 }

end Sys2Proof.Machine
end

