-- ==== Sys2Proof/Machine/Flags.lean ====
section
/-! DEFINITION. The block has no condition flags (10_state.md R31). What its commands write instead is STATUS: the
status codes and cause codes of 60_exceptions.md R180, R181, and how a command's end writes the register (R29, R185). -/

namespace Sys2Proof.Machine

/-- The status code of a command that completes (R180). -/
def okCode : Byte := 0x00#8

/-- The status code of an error (R180). -/
def CommandError.code : CommandError → Byte
  | .configuration _ => 0x01#8
  | .range => 0x02#8
  | .sizeMismatch => 0x03#8
  | .illegalCommand _ => 0x04#8
  | .notConstructed => 0x05#8

/-- The cause code of a ConfigurationError (R181). -/
def ConfigCause.code : ConfigCause → Byte
  | .lengthZero => 0x01#8
  | .lengthTooLarge => 0x02#8
  | .pinCollision => 0x03#8
  | .alreadyConstructed => 0x04#8

/-- The cause code of an IllegalCommand (R89, R181). -/
def illegalCauseCode : IllegalCause → Byte
  | .reservedOpcode => 0x01#8
  | .reservedBit => 0x02#8

/-- The cause code of an error, "0x00 where R181 gives no cause" (R185). -/
def CommandError.causeCode : CommandError → Byte
  | .configuration c => c.code
  | .range => 0x00#8
  | .sizeMismatch => 0x00#8
  | .illegalCommand c => illegalCauseCode c
  | .notConstructed => 0x00#8

/-- STATUS after a command that completes: ERR_SEEN is sticky (R29, R92). -/
def Status.completed (st : Status) : Status := { st with last := okCode, cause := 0x00#8 }

/-- STATUS after a command that ends in an error (R185). -/
def Status.failed (_st : Status) (e : CommandError) : Status :=
  { last := e.code, cause := e.causeCode, errSeen := true }

end Sys2Proof.Machine
end

