-- ==== Sys2Proof/Machine/Operands.lean ====
section
/-! DEFINITION. How a command uses its operands: the pin index and its range (20_memory.md R51, R52, 60_exceptions.md
R184), the checks of CONSTRUCT's operands (40_construct.md R110), the pin identifier of a line's role (10_state.md
R22), and the bits of a byte in the order they are sent (R8, R54). -/

namespace Sys2Proof.Machine

/-- A pin index is valid when `0 <= p < 8*CFG.N` (R52). -/
def validPin (cfg : ChannelConfig) (p : Int) : Bool := decide (0 ≤ p ∧ p < 8 * (cfg.length : Int))

/-- `byteOf(p) = p / 8`, applied only to `p >= 0` (R9, R51). -/
def byteOf (p : Int) : Nat := p.toNat / 8

/-- `bitOf(p) = p % 8`, applied only to `p >= 0` (R9, R51). -/
def bitOf (p : Int) : Nat := p.toNat % 8

/-- Two of the three identifiers are equal, whichever two (R110). -/
def pinsCollide (d c l : PinId) : Bool := d == c || d == l || c == l

/-- `CFG.r`, the identifier of the line of role `r` (R22). -/
def ChannelConfig.pin (cfg : ChannelConfig) : LineRole → PinId
  | .data => cfg.data
  | .clock => cfg.clock
  | .latch => cfg.latch

/-- The byte with bit `b` set to `v` and the other seven bits alone (R10, R58). -/
def setBit (x : Byte) (b : Nat) (v : Level) : Byte :=
  if v then x ||| (1#8 <<< b) else x &&& ~~~(1#8 <<< b)

/-- The bits of a byte, most significant first: bit 7 first, bit 0 last (R54). -/
def bitsMsbFirst (x : Byte) : List Level :=
  [x.getLsbD 7, x.getLsbD 6, x.getLsbD 5, x.getLsbD 4, x.getLsbD 3, x.getLsbD 2, x.getLsbD 1, x.getLsbD 0]

/-- `zext_8` of one bit: `0x00` or `0x01` (R92, R132). -/
def bitByte (v : Level) : Byte := (BitVec.ofBool v).setWidth 8

end Sys2Proof.Machine
end

