-- ==== Sys2Proof/Machine/Ops.lean ====
section
/-! DEFINITION. The shared operations: reading and writing BUF (00_scope.md R10), emitting line events (10_state.md
R28, R30), the transmission (44_transmit.md R151, R154), ending a command with a response (30_encoding.md R92) or with
an error (60_exceptions.md R185), the phase check (R189), taking a reset (70_reset_and_hazards.md R200), and fetching
the next input of the port (30_encoding.md R80). The block has no return from an error (R191). -/

namespace Sys2Proof.Machine

/-! ## The pin-state register file -/

/-- `BUF[i]` (R10, R24). Used only with `i < BUF.length` (log 8). -/
def readByte (buf : List Byte) (i : Nat) : Byte := buf.getD i 0x00#8

/-- `BUF[i] <- v` (R10). Used only with `i < BUF.length` (log 8). -/
def writeByte (buf : List Byte) (i : Nat) (v : Byte) : List Byte := buf.set i v

/-- `BUF[i][b]` (R10). -/
def readBit (buf : List Byte) (i b : Nat) : Level := (readByte buf i).getLsbD b

/-- `BUF[i][b] <- v`: a read-modify-write of one byte that changes only the named bit (R10, R58). -/
def writeBit (buf : List Byte) (i b : Nat) (v : Level) : List Byte :=
  writeByte buf i (setBit (readByte buf i) b v)

/-- The level of logical pin `p` (R51). -/
def readPin (buf : List Byte) (p : Int) : Level := readBit buf (byteOf p) (bitOf p)

/-- BUF with logical pin `p` set to `v` (R51). -/
def writePin (buf : List Byte) (p : Int) (v : Level) : List Byte := writeBit buf (byteOf p) (bitOf p) v

/-- `for i = 0 to CFG.N-1: BUF[i] <- v` (R140 to R143). -/
def fill (cfg : ChannelConfig) (v : Byte) : List Byte := List.replicate cfg.length v

/-! ## Line events -/

/-- What an event does to the line whose identifier is `id` (R28). -/
def Line.apply (id : PinId) (l : Line) : LineEvent → Line
  | .pinMode e => if e = id then { l with mode := .output } else l
  | .write e level => if e = id then { l with level := .driven level } else l

/-- The line effects of an event: "`Emit(PinMode(CFG.r))` sets `LINES[r].mode <- OUTPUT`" and
"`Emit(Write(CFG.r, l))` sets `LINES[r].level <- l`" (R28). -/
def Lines.apply (cfg : ChannelConfig) (l : Lines) (e : LineEvent) : Lines :=
  { data := l.data.apply (cfg.pin .data) e
    clock := l.clock.apply (cfg.pin .clock) e
    latch := l.latch.apply (cfg.pin .latch) e }

/-- Emit the events of a list, in order: each is appended to TRACE and updates LINES (R10, R28, R30). -/
def emitAll (cfg : ChannelConfig) (es : List LineEvent) (s : State) : State :=
  { s with trace := s.trace ++ es, lines := es.foldl (Lines.apply cfg) s.lines }

/-! ## Transmission -/

/-- The line-level form of one bit: present it, rising clock edge, clock back to idle low (R154). -/
def clockBit (cfg : ChannelConfig) (bit : Level) : List LineEvent :=
  [.write cfg.data bit, .write cfg.clock true, .write cfg.clock false]

/-- `ShiftOutByte(x)`: eight bits, most significant first (R153, R154). -/
def shiftOutByte (cfg : ChannelConfig) (x : Byte) : List LineEvent :=
  (bitsMsbFirst x).flatMap (clockBit cfg)

/-- The latch pulse: rising edge, which commits, and back to idle low (R151). -/
def latchPulse (cfg : ChannelConfig) : List LineEvent := [.write cfg.latch true, .write cfg.latch false]

/-- The shift phase: `for i = CFG.N-1 downto 0: ShiftOutByte(BUF[i])`, last chip first (R151, R54). -/
def shiftPhase (cfg : ChannelConfig) (buf : List Byte) : List LineEvent :=
  buf.reverse.flatMap (shiftOutByte cfg)

/-- The events of one transmission (R151, R155). -/
def transmitEvents (cfg : ChannelConfig) (buf : List Byte) : List LineEvent :=
  shiftPhase cfg buf ++ latchPulse cfg

/-- `Transmit()`: it writes LINES and TRACE, and never BUF (R151). -/
def transmit (cfg : ChannelConfig) (buf : List Byte) (s : State) : State :=
  emitAll cfg (transmitEvents cfg buf) s

/-! ## Ending a command -/

/-- `Respond(OK, data)`: STATUS.LAST and STATUS.CAUSE are 0, and the response goes to the host (R92). -/
def respondOk (data : List Byte) (s : State) : State :=
  { s with
    status := s.status.completed
    responses := s.responses ++ [{ last := okCode, cause := 0x00#8, data := data }] }

/-- `raise E(cause)`, the one way a command takes an error (R185): STATUS is written, ERR_SEEN set, the response
carries no data, and "No other state changes". -/
def raise (e : CommandError) (s : State) : State :=
  { s with
    status := s.status.failed e
    responses := s.responses ++ [{ last := e.code, cause := e.causeCode, data := [] }] }

/-- A command that completes. -/
def done (data : List Byte) (s : State) : Result := .next (respondOk data s)

/-- A command that ends in an error: a next state, since the block has no traps (R190). -/
def fail (e : CommandError) (s : State) : Result := .next (raise e s)

/-- The phase check of every command but CONSTRUCT: NotConstructed while UNCONSTRUCTED (R187, R189). Past it, CFG and
BUF exist. -/
def whenReady (s : State) (body : ChannelConfig → List Byte → Result) : Result :=
  match s.phase with
  | .unconstructed => fail .notConstructed s
  | .ready cfg buf => body cfg buf

/-- The range check of the pin commands (R184), before any write. -/
def whenValidPin (cfg : ChannelConfig) (p : Int) (s : State) (body : Result) : Result :=
  if validPin cfg p then body else fail .range s

/-- Write BUF (R26). -/
def setBuf (cfg : ChannelConfig) (buf : List Byte) (s : State) : State := { s with phase := .ready cfg buf }

/-- Write BUF, then transmit it. -/
def storeAndTransmit (cfg : ChannelConfig) (buf : List Byte) (s : State) : State :=
  transmit cfg buf (setBuf cfg buf s)

/-! ## Reset and the command port -/

/-- Taking a reset (R200, R202): every piece of the block's state at its reset value, no line event. The host's queue
and the responses it already has are not the block's (logs 1, 2), and INIT_LEVEL is drawn afresh (log 5). -/
def takeReset (s : State) : State :=
  { State.reset with port := s.port, responses := s.responses, draws := s.draws + 1 }

/-- What the block finds on its port, with the state in which that input has been taken. -/
inductive Fetched where
  /-- Nothing: the block waits for a command (R201). -/
  | idle
  /-- A reset, between commands (R200). -/
  | reset (s : State)
  /-- A transaction that is a command (R91). -/
  | command (i : Instr) (s : State)
  /-- A transaction whose header word is illegal (R89). -/
  | illegal (cause : IllegalCause) (s : State)
  /-- A transaction the transport cannot have delivered (R90; log 4). -/
  | misframed
  deriving DecidableEq, Repr

/-- Take the next input of the port (R60, R80). The whole transaction is consumed, legal or not (R90). -/
def fetch (s : State) : Fetched :=
  match s.port with
  | [] => .idle
  | .reset :: rest => .reset { s with port := rest }
  | .transaction w payload :: rest =>
    match decodeTransaction w payload with
    | .command i => .command i { s with port := rest }
    | .illegal c => .illegal c { s with port := rest }
    | .misframed => .misframed

/-- The level on the wire of the line of role `r`: what the block last drove, or the INIT_LEVEL draw where it has
driven nothing since reset (R28, R201; log 5). No command reads it. -/
def State.wireLevel (s : State) (r : LineRole) : Level :=
  match (s.lines.line r).level with
  | .driven level => level
  | .unknown => Config.initLevel s.draws r

end Sys2Proof.Machine
end

