-- ==== Sys2Proof/Machine/Bulk.lean ====
section
/-! DEFINITION. The whole-buffer commands SETALL and GETALL (41_bulk_access.md). -/

namespace Sys2Proof.Machine

/-- SETALL (R120): the size check comes before any write (R186); payload byte j goes to BUF[j] (R53). -/
def execSetAll (values : List Byte) (s : State) : Result :=
  whenReady s fun cfg _ =>
    if values.length = cfg.length then done [] (storeAndTransmit cfg values s)
    else fail .sizeMismatch s

/-- GETALL (R122): a copy of BUF, BUF[0] first; no line event. -/
def execGetAll (s : State) : Result :=
  whenReady s fun _ buf => done buf s

end Sys2Proof.Machine
end

