-- ==== Sys2Proof/Machine/Fill.lean ====
section
/-! DEFINITION. The fill commands (43_fill.md). -/

namespace Sys2Proof.Machine

/-- Every byte of BUF becomes `v`; then a transmission where `transmits` says so (R140 to R143). -/
def fillAll (v : Byte) (transmits : Bool) (s : State) : Result :=
  whenReady s fun cfg _ =>
    if transmits then done [] (storeAndTransmit cfg (fill cfg v) s)
    else done [] (setBuf cfg (fill cfg v) s)

/-- SETALLLOW (R140). -/
def execSetAllLow (s : State) : Result := fillAll 0x00#8 true s

/-- SETALLHIGH (R141). -/
def execSetAllHigh (s : State) : Result := fillAll 0xFF#8 true s

/-- SETALLLOWNOUPDATE (R142). -/
def execSetAllLowNoUpdate (s : State) : Result := fillAll 0x00#8 false s

/-- SETALLHIGHNOUPDATE under either setting of the parameter HIGH_NOUPDATE_TRANSMITS (R143). -/
def highNoUpdate (highNoUpdateTransmits : Bool) (s : State) : Result :=
  fillAll 0xFF#8 highNoUpdateTransmits s

/-- SETALLHIGHNOUPDATE with this hardware's parameter (R143; log 6). -/
def execSetAllHighNoUpdate (s : State) : Result := highNoUpdate Config.highNoUpdateTransmits s

end Sys2Proof.Machine
end

