-- ==== Sys2Proof/Machine/Lifecycle.lean ====
section
/-! DEFINITION. The lifecycle command CONSTRUCT (40_construct.md). -/

namespace Sys2Proof.Machine

/-- The line set-up of CONSTRUCT, before its transmission: the three lines configured as outputs in the order CLOCK,
DATA, LATCH, then each driven low in the same order (R111). -/
def setupEvents (cfg : ChannelConfig) : List LineEvent :=
  [.pinMode cfg.clock, .pinMode cfg.data, .pinMode cfg.latch,
   .write cfg.clock false, .write cfg.data false, .write cfg.latch false]

/-- The effect of a CONSTRUCT whose checks have passed: CFG set, lines set up, BUF all zero, READY, one transmission
(R110, R203). -/
def construct (cfg : ChannelConfig) (s : State) : State :=
  storeAndTransmit cfg (fill cfg 0x00#8) (emitAll cfg (setupEvents cfg) s)

/-- CONSTRUCT (R110): every check comes before any write, in the order of R189. -/
def execConstruct (n : BitVec 16) (d c l : PinId) (s : State) : Result :=
  match s.phase with
  | .ready _ _ => fail (.configuration .alreadyConstructed) s
  | .unconstructed =>
    if n.toNat < 1 then fail (.configuration .lengthZero) s
    else if Config.nMax < n.toNat then fail (.configuration .lengthTooLarge) s
    else if pinsCollide d c l then fail (.configuration .pinCollision) s
    else done [] (construct { n := n, data := d, clock := c, latch := l } s)

end Sys2Proof.Machine
end

