-- ==== Sys2Proof/Machine/Pins.lean ====
section
/-! DEFINITION. The single-pin commands SET, GET and SETNOUPDATE (42_pin_access.md). -/

namespace Sys2Proof.Machine

/-- SET (R130): one bit of BUF, then a transmission, even where the bit already holds the value. -/
def execSetPin (p : Int) (v : Level) (s : State) : Result :=
  whenReady s fun cfg buf =>
    whenValidPin cfg p s (done [] (storeAndTransmit cfg (writePin buf p v) s))

/-- GET (R132): the committed bit, in one byte; no line event. -/
def execGetPin (p : Int) (s : State) : Result :=
  whenReady s fun cfg buf =>
    whenValidPin cfg p s (done [bitByte (readPin buf p)] s)

/-- SETNOUPDATE (R134): the bit mutation of SET without a transmission. -/
def execSetNoUpdate (p : Int) (v : Level) (s : State) : Result :=
  whenReady s fun cfg buf =>
    whenValidPin cfg p s (done [] (setBuf cfg (writePin buf p v) s))

end Sys2Proof.Machine
end

