-- ==== Sys2Proof/Machine/Transmit.lean ====
section
/-! DEFINITION. UPDATEREGISTERS (44_transmit.md), the one commit operation (20_memory.md R62). -/

namespace Sys2Proof.Machine

/-- UPDATEREGISTERS (R150): a transmission of BUF as it stands. -/
def execUpdateRegisters (s : State) : Result :=
  whenReady s fun cfg buf => done [] (transmit cfg buf s)

end Sys2Proof.Machine
end

