-- ==== Sys2Proof/Machine/Dispatch.lean ====
section
/-! DEFINITION. One arm per command: each calls its meaning. -/

namespace Sys2Proof.Machine

def exec (i : Instr) (s : State) : Host.Outcome State Fault Refusal :=
  match i with
  | .construct n d c l => Sys2Proof.Machine.execConstruct n d c l s
  | .setAll values => Sys2Proof.Machine.execSetAll values s
  | .getAll => Sys2Proof.Machine.execGetAll s
  | .setPin p v => Sys2Proof.Machine.execSetPin p v s
  | .getPin p => Sys2Proof.Machine.execGetPin p s
  | .setNoUpdate p v => Sys2Proof.Machine.execSetNoUpdate p v s
  | .setAllLow => Sys2Proof.Machine.execSetAllLow s
  | .setAllHigh => Sys2Proof.Machine.execSetAllHigh s
  | .setAllLowNoUpdate => Sys2Proof.Machine.execSetAllLowNoUpdate s
  | .setAllHighNoUpdate => Sys2Proof.Machine.execSetAllHighNoUpdate s
  | .updateRegisters => Sys2Proof.Machine.execUpdateRegisters s

end Sys2Proof.Machine
end

