-- ==== Sys2Proof/Machine/Step.lean ====
section
/-! DEFINITION. One step: the block takes the next input of its port and runs it to completion (20_memory.md R60). -/

namespace Sys2Proof.Machine

/-- One step of the block. With nothing on the port it waits (70_reset_and_hazards.md R201; log 3). An illegal header
word ends with IllegalCommand, before any phase check (60_exceptions.md R189). -/
def step (s : State) : Host.Outcome State Fault Refusal :=
  match fetch s with
  | .idle => .next s
  | .reset s' => .next (takeReset s')
  | .command i s' => exec i s'
  | .illegal cause s' => fail (.illegalCommand cause) s'
  | .misframed => .fault .payloadNotAsFramed

/-- The state in which the host has put the transaction of the bits `w` first on the port, so that the next step runs
it. The bits are numbered as spec/opcode_table.json numbers them; a payload bit above `nbits` is 0 (log 1). -/
def State.withFetchWord (s : State) (nbits w : Nat) : State :=
  { s with port := .transaction (tableHeader nbits w) (tablePayload nbits w) :: s.port }

end Sys2Proof.Machine
end

