-- ==== Sys2Proof/Machine/Observer.lean ====
section
/-! DEFINITION. What an observer of the line events sees (44_transmit.md R160 to R164): the serial bit stream, the
latched state SENT as a ghost function of TRACE, and the reference model of the downstream chips. It is no part of the
block: no command reads any of it (10_state.md R32, R33; log 12). -/

namespace Sys2Proof.Machine

/-! ## The bit stream and SENT -/

/-- `Stream(BUF)`: bytes from the last to the first, bits most significant first (20_memory.md R54). -/
def stream (buf : List Byte) : List Level := buf.reverse.flatMap bitsMsbFirst

/-- What the ghost function of R161 keeps while it reads TRACE. -/
structure Sampler where
  /-- The DATA level last written; none before the first DATA write. -/
  level : Option Level
  /-- The DATA levels at the CLOCK rising edges since the last LATCH rising edge. -/
  shifted : List Level
  /-- The bits committed by the last LATCH rising edge; none before the first. -/
  latched : Option (List Level)
  deriving DecidableEq, Repr

/-- Nothing read yet. -/
def Sampler.start : Sampler := { level := none, shifted := [], latched := none }

/-- Read one event (R161). A CLOCK rising edge before any DATA write samples no bit. -/
def Sampler.read (cfg : ChannelConfig) (m : Sampler) : LineEvent → Sampler
  | .pinMode _ => m
  | .write id level =>
    if id = cfg.data then { m with level := some level }
    else if id = cfg.clock ∧ level = true then { m with shifted := m.shifted ++ m.level.toList }
    else if id = cfg.latch ∧ level = true then { m with shifted := [], latched := some m.shifted }
    else m

/-- The bits of SENT as TRACE shows them; none before the first transmission, where SENT is undefined (R160, R161). -/
def sentBits (cfg : ChannelConfig) (trace : List LineEvent) : Option (List Level) :=
  (trace.foldl (Sampler.read cfg) .start).latched

/-- The bits of SENT in a state; none while UNCONSTRUCTED. -/
def State.sentBits (s : State) : Option (List Level) :=
  match s.phase with
  | .unconstructed => none
  | .ready cfg _ => Machine.sentBits cfg s.trace

/-! ## The downstream chips -/

/-- Chip `k` of the chain: its 8-bit shift stage `S[k]` and its 8-bit storage register `Q[k]` (R162). -/
structure Chip where
  stage : Byte
  output : Byte
  deriving DecidableEq, Repr

/-- Every chip shifts at the same moment: `S'[0] = {S[0][6:0], DATA}`, `S'[k] = {S[k][6:0], S[k-1][7]}` (R162). -/
def shiftChips (serial : Level) : List Chip → List Chip
  | [] => []
  | c :: rest =>
    { c with stage := BitVec.concat (c.stage.setWidth 7) serial } :: shiftChips (c.stage.getLsbD 7) rest

/-- `Q[k] <- S[k]` for every k, all at once (R162). -/
def latchChips (chips : List Chip) : List Chip := chips.map fun c => { c with output := c.stage }

/-- The observer: the lines it watches and the `K` chips on them, chip 0 first (R162). -/
structure Observer where
  lines : Lines
  chips : List Chip
  deriving DecidableEq, Repr

/-- The level of a line; `init` is the INIT_LEVEL draw, for a line nothing has driven (R201). -/
def Lines.levelOf (init : LineRole → Level) (l : Lines) (r : LineRole) : Level :=
  match (l.line r).level with
  | .driven level => level
  | .unknown => init r

/-- What an event does to the chips, by the levels before it: a CLOCK rising edge shifts, a LATCH rising edge latches
(R162). -/
def chipsAfter (init : LineRole → Level) (cfg : ChannelConfig) (o : Observer) : LineEvent → List Chip
  | .pinMode _ => o.chips
  | .write _ false => o.chips
  | .write id true =>
    let shifted :=
      if id = cfg.clock ∧ o.lines.levelOf init .clock = false then
        shiftChips (o.lines.levelOf init .data) o.chips
      else o.chips
    if id = cfg.latch ∧ o.lines.levelOf init .latch = false then latchChips shifted else shifted

/-- Watch one event. -/
def Observer.watch (init : LineRole → Level) (cfg : ChannelConfig) (o : Observer) (e : LineEvent) : Observer :=
  { lines := o.lines.apply cfg e, chips := chipsAfter init cfg o e }

/-- Watch the events of a list, in order. -/
def Observer.watchAll (init : LineRole → Level) (cfg : ChannelConfig) (o : Observer) (es : List LineEvent) :
    Observer :=
  es.foldl (Observer.watch init cfg) o

/-- The chips as TRACE has left them since the reset, `chips` being what they held then (a draw, R201). While
UNCONSTRUCTED the block has driven nothing. -/
def State.chips (s : State) (chips : List Chip) : List Chip :=
  match s.phase with
  | .unconstructed => chips
  | .ready cfg _ =>
    (Observer.watchAll (Config.initLevel s.draws) cfg { lines := .reset, chips := chips } s.trace).chips

/-- `K` wired chips show these bytes on their outputs: output `b` of chip `k` shows `Q[k][b]` (R162). -/
def outputs (chips : List Chip) : List Byte := chips.map Chip.output

/-- The shift stages of the chips. -/
def stages (chips : List Chip) : List Byte := chips.map Chip.stage

end Sys2Proof.Machine
end

