-- ==== Sys2Proof/Safety.lean ====
section
/-! DEFINITION. The terms claims about runs use: what a legal configuration, register file and status are, the shape
of TRACE, the invariant of the block, which error a command reports, and a run of several commands. -/

namespace Sys2Proof.Machine

/-! ## The invariant -/

/-- The invariant of CFG while READY (10_state.md R23). -/
def ChannelConfig.Legal (cfg : ChannelConfig) : Prop :=
  1 ≤ cfg.length ∧ cfg.length ≤ Config.nMax ∧
    cfg.data ≠ cfg.clock ∧ cfg.data ≠ cfg.latch ∧ cfg.clock ≠ cfg.latch

/-- CFG is legal (R23) and BUF has exactly CFG.N bytes (R24). -/
def Phase.Legal : Phase → Prop
  | .unconstructed => True
  | .ready cfg buf => cfg.Legal ∧ buf.length = cfg.length

/-- The pairs (LAST, CAUSE) a command can leave (60_exceptions.md R180, R181). -/
def legalCodes : List (Byte × Byte) :=
  [ (0x00#8, 0x00#8),
    (0x01#8, 0x01#8), (0x01#8, 0x02#8), (0x01#8, 0x03#8), (0x01#8, 0x04#8),
    (0x02#8, 0x00#8),
    (0x03#8, 0x00#8),
    (0x04#8, 0x01#8), (0x04#8, 0x02#8),
    (0x05#8, 0x00#8) ]

/-- STATUS holds codes of R180 and R181, and an error has set ERR_SEEN (R29, R185). -/
def Status.Legal (st : Status) : Prop :=
  (st.last, st.cause) ∈ legalCodes ∧ (st.last ≠ okCode → st.errSeen = true)

/-- TRACE of a constructed block whose transmissions sent the register files of `history`, oldest first: the line
set-up of R111, then one transmission after the other (R30, R151). -/
def traceOf (cfg : ChannelConfig) (history : List (List Byte)) : List LineEvent :=
  setupEvents cfg ++ history.flatMap (transmitEvents cfg)

/-- TRACE and LINES agree with the history of the block: nothing emitted and the lines untouched while UNCONSTRUCTED;
otherwise at least one transmission, each of CFG.N bytes, and the lines as the events of TRACE left them (R28, R30). -/
def State.Recorded (s : State) : Prop :=
  match s.phase with
  | .unconstructed => s.trace = [] ∧ s.lines = .reset
  | .ready cfg _ =>
    (∃ history : List (List Byte), history ≠ [] ∧ (∀ sent ∈ history, sent.length = cfg.length) ∧
      s.trace = traceOf cfg history) ∧
    s.lines = s.trace.foldl (Lines.apply cfg) .reset

/-- The invariant every step keeps. -/
def State.Inv (s : State) : Prop := s.phase.Legal ∧ s.status.Legal ∧ s.Recorded

/-! ## Errors -/

/-- Every header word with this opcode that its row does not select is illegal, with the cause of a reserved bit (R89). -/
def ReservedBitsAreIllegal (opc : BitVec 4) (pattern mask : Word) : Prop :=
  ∀ (w : Word) (payload : List Byte), w.extractLsb' 28 4 = opc → w &&& mask ≠ pattern →
    payload.length = payloadLen w → decodeTransaction w payload = .illegal .reservedBit

/-- The state in which a command has ended with these codes, all but STATUS and the response as before (R185). -/
def State.reported (s : State) (last cause : Byte) : State :=
  { s with
    status := { last := last, cause := cause, errSeen := true }
    responses := s.responses ++ [{ last := last, cause := cause, data := [] }] }

/-- The state in which a command has completed with these data, all but STATUS and the response as before (R92). -/
def State.answered (s : State) (data : List Byte) : State :=
  { s with
    status := { last := 0x00#8, cause := 0x00#8, errSeen := s.status.errSeen }
    responses := s.responses ++ [{ last := 0x00#8, cause := 0x00#8, data := data }] }

/-- The first check that fails, in the order of R189: decode, then phase, then the command's own checks in the order
its pseudocode lists them. -/
def firstError (d : Decoded) (phase : Phase) : Option CommandError :=
  match d with
  | .misframed => none
  | .illegal c => some (.illegalCommand c)
  | .command (.construct n d c l) =>
    match phase with
    | .ready _ _ => some (.configuration .alreadyConstructed)
    | .unconstructed =>
      if n = 0#16 then some (.configuration .lengthZero)
      else if 4096 < n.toNat then some (.configuration .lengthTooLarge)
      else if d = c ∨ d = l ∨ c = l then some (.configuration .pinCollision)
      else none
  | .command i =>
    match phase with
    | .unconstructed => some .notConstructed
    | .ready cfg _ =>
      match i with
      | .setAll values => if values.length ≠ cfg.length then some .sizeMismatch else none
      | .setPin p _ => if p < 0 ∨ 8 * (cfg.length : Int) ≤ p then some .range else none
      | .getPin p => if p < 0 ∨ 8 * (cfg.length : Int) ≤ p then some .range else none
      | .setNoUpdate p _ => if p < 0 ∨ 8 * (cfg.length : Int) ≤ p then some .range else none
      | _ => none

/-! ## Runs -/

/-- The commands that end with a transmission when they complete (R26, R59); SETALLHIGHNOUPDATE is none of them on this
hardware (R143). -/
def transmits : Instr → Bool
  | .construct _ _ _ _ => true
  | .setAll _ => true
  | .getAll => false
  | .setPin _ _ => true
  | .getPin _ => false
  | .setNoUpdate _ _ => false
  | .setAllLow => true
  | .setAllHigh => true
  | .setAllLowNoUpdate => false
  | .setAllHighNoUpdate => false
  | .updateRegisters => true

/-- Run commands one after the other, each to completion (20_memory.md R60), stopping where one stops. -/
def runCommands : List Instr → State → Result
  | [], s => .next s
  | i :: rest, s =>
    match exec i s with
    | .next t => runCommands rest t
    | .fault f => .fault f
    | .refused r => .refused r

/-- An input the transport can deliver: a reset, or a transaction of exactly `PayloadLen(header)` payload bytes
(30_encoding.md R90). A step on any other input is not a safe one. -/
def HostInput.framed : HostInput → Bool
  | .transaction w payload => payload.length == payloadLen w
  | .reset => true

end Sys2Proof.Machine
end

