-- ==== Sys2Proof/Certificates/Slice0/Obligations.lean ====
section
/-! DEFINITION. The statements about the model, from the numbered rules of spec/. Each docstring names the rule it
formalises, or says what it rests on. -/

open Sys2Proof Sys2Proof.Machine

/-! ## Encoding -/

/-- R94: the seven encoding examples, header word and payload, encoded and decoded. -/
def Obligations.EncodingExamplesEncodeAndDecode : Prop :=
  (encode (.construct 2#16 11#8 12#8 8#8) = [0x10#8, 0x00#8, 0x00#8, 0x02#8, 0x0B#8, 0x0C#8, 0x08#8] ∧
    decodeTransaction 0x10000002#32 [0x0B#8, 0x0C#8, 0x08#8] = .command (.construct 2#16 11#8 12#8 8#8)) ∧
  (encode (.setAll [0x01#8, 0x00#8]) = [0x20#8, 0x00#8, 0x00#8, 0x02#8, 0x01#8, 0x00#8] ∧
    decodeTransaction 0x20000002#32 [0x01#8, 0x00#8] = .command (.setAll [0x01#8, 0x00#8])) ∧
  (encode (.setPin 9 true) = [0x40#8, 0x01#8, 0x00#8, 0x09#8] ∧
    decodeTransaction 0x40010009#32 [] = .command (.setPin 9 true)) ∧
  (encode (.setPin (-1) true) = [0x40#8, 0x01#8, 0xFF#8, 0xFF#8] ∧
    decodeTransaction 0x4001FFFF#32 [] = .command (.setPin (-1) true)) ∧
  (encode (.getPin 16) = [0x50#8, 0x00#8, 0x00#8, 0x10#8] ∧
    decodeTransaction 0x50000010#32 [] = .command (.getPin 16)) ∧
  (encode (.setNoUpdate 7 false) = [0x60#8, 0x00#8, 0x00#8, 0x07#8] ∧
    decodeTransaction 0x60000007#32 [] = .command (.setNoUpdate 7 false)) ∧
  (encode .updateRegisters = [0xB0#8, 0x00#8, 0x00#8, 0x00#8] ∧
    decodeTransaction 0xB0000000#32 [] = .command .updateRegisters)

/-- R88: a word selects a command when `(w & mask) == match`, with the row's free fields as its operands; at most one
row matches a word. -/
def Obligations.HeaderWordSelectsItsRow : Prop :=
  (∀ w d c l, w &&& 0xFFFF0000#32 = 0x10000000#32 →
    decodeTransaction w [d, c, l] = .command (.construct (w.extractLsb' 0 16) d c l)) ∧
  (∀ w values, w &&& 0xFFFF0000#32 = 0x20000000#32 → values.length = (w.extractLsb' 0 16).toNat →
    decodeTransaction w values = .command (.setAll values)) ∧
  (∀ w, w &&& 0xFFFFFFFF#32 = 0x30000000#32 → decodeTransaction w [] = .command .getAll) ∧
  (∀ w, w &&& 0xFFFE0000#32 = 0x40000000#32 →
    decodeTransaction w [] = .command (.setPin (w.extractLsb' 0 16).toInt (w.getLsbD 16))) ∧
  (∀ w, w &&& 0xFFFF0000#32 = 0x50000000#32 →
    decodeTransaction w [] = .command (.getPin (w.extractLsb' 0 16).toInt)) ∧
  (∀ w, w &&& 0xFFFE0000#32 = 0x60000000#32 →
    decodeTransaction w [] = .command (.setNoUpdate (w.extractLsb' 0 16).toInt (w.getLsbD 16))) ∧
  (∀ w, w &&& 0xFFFFFFFF#32 = 0x70000000#32 → decodeTransaction w [] = .command .setAllLow) ∧
  (∀ w, w &&& 0xFFFFFFFF#32 = 0x80000000#32 → decodeTransaction w [] = .command .setAllHigh) ∧
  (∀ w, w &&& 0xFFFFFFFF#32 = 0x90000000#32 → decodeTransaction w [] = .command .setAllLowNoUpdate) ∧
  (∀ w, w &&& 0xFFFFFFFF#32 = 0xA0000000#32 → decodeTransaction w [] = .command .setAllHighNoUpdate) ∧
  (∀ w, w &&& 0xFFFFFFFF#32 = 0xB0000000#32 → decodeTransaction w [] = .command .updateRegisters) ∧
  (∀ w : Word, (opcodeRows.filter fun r => w &&& r.mask == r.pattern).length ≤ 1)

/-- R89: every header word is a command or illegal. It is illegal with cause 0x01 for a reserved opcode and with cause
0x02 for a reserved bit of its format, and an illegal command changes nothing except STATUS (its response and the
taken transaction apart). -/
def Obligations.IllegalWordEndsWithIllegalCommand : Prop :=
  ∀ (s : State) (w : Word) (payload : List Byte) (rest : List HostInput),
    s.port = .transaction w payload :: rest → payload.length = payloadLen w →
    let reserved := w.extractLsb' 28 4 ∈ [0x0#4, 0xC#4, 0xD#4, 0xE#4, 0xF#4]
    let reservedBit :=
      (w.extractLsb' 28 4 ∈ [0x3#4, 0x7#4, 0x8#4, 0x9#4, 0xA#4, 0xB#4] ∧ w.extractLsb' 0 28 ≠ 0#28) ∨
      (w.extractLsb' 28 4 ∈ [0x1#4, 0x2#4, 0x5#4] ∧ w.extractLsb' 16 12 ≠ 0#12) ∨
      (w.extractLsb' 28 4 ∈ [0x4#4, 0x6#4] ∧ w.extractLsb' 17 11 ≠ 0#11)
    (reserved → step s = .next ({ s with port := rest }.reported 0x04#8 0x01#8)) ∧
    (reservedBit → step s = .next ({ s with port := rest }.reported 0x04#8 0x02#8)) ∧
    (¬ reserved → ¬ reservedBit → ∃ i, decodeTransaction w payload = .command i)

/-- R90: PayloadLen from OPC and `w[15:0]` alone; the receiver finds the end of a transaction by it; and a command that
ends in an error consumes its payload as any other does. -/
def Obligations.PayloadLengthEndsTheTransaction : Prop :=
  (∀ w : Word, payloadLen w =
    if w.extractLsb' 28 4 = 0x1#4 then 3
    else if w.extractLsb' 28 4 = 0x2#4 then (w.extractLsb' 0 16).toNat
    else 0) ∧
  (∀ (w : Word) (payload rest : List Byte), payload.length = payloadLen w →
    receive (headerBytes w ++ payload ++ rest) = some (w, payload, rest)) ∧
  (∀ (s : State) (w : Word) (payload : List Byte) (rest : List HostInput),
    s.port = .transaction w payload :: rest → payload.length = payloadLen w →
    ∃ t, step s = .next t ∧ t.port = rest)

/-- From R85: PIN is the low half read as two's complement; a negative one is out of range on every chain, and every
valid index of a legal chain has a PIN field. -/
def Obligations.PinFieldIsTwosComplement : Prop :=
  (∀ w : Word, pinField w =
    if w.getLsbD 15 then ((w.extractLsb' 0 16).toNat : Int) - 65536 else (w.extractLsb' 0 16).toNat) ∧
  (∀ w : Word, -32768 ≤ pinField w ∧ pinField w ≤ 32767) ∧
  (∀ (cfg : ChannelConfig) (p : Int), p < 0 → validPin cfg p = false) ∧
  (∀ (cfg : ChannelConfig) (p : Int), cfg.Legal → validPin cfg p = true → ∃ w : Word, pinField w = p)

/-- Decode and encode agree: the bytes of a well-formed command, whatever follows them, decode to that command with
every operand as it was, and the bytes that follow are left (R81, R86, R88, R90, R93). -/
def Obligations.DecodeOfEncodeIsTheCommand : Prop :=
  ∀ (i : Instr) (rest : List Byte), wellFormed i = true → decode (encode i ++ rest) = .command i rest

/-- The other direction: a byte stream that decodes to a command begins with that command's encoding, and the command
is well-formed. -/
def Obligations.EncodeOfDecodeIsTheStream : Prop :=
  ∀ (bytes rest : List Byte) (i : Instr), decode bytes = .command i rest →
    wellFormed i = true ∧ encode i ++ rest = bytes

/-- A step runs the decoded command: with a transaction of a well-formed command first on the port, the step is the
meaning of that command in the state that has taken the transaction (R60, R80). -/
def Obligations.StepRunsTheDecodedCommand : Prop :=
  ∀ (s : State) (w : Word) (payload : List Byte) (rest : List HostInput) (i : Instr),
    s.port = .transaction w payload :: rest → decodeTransaction w payload = .command i →
    step s = exec i { s with port := rest }

/-- The word of an opcode-table row, put first on the port, is the command the decoder reads from it, and the next step
runs exactly that command in the state as it was. The port as a list is the model's own (log 1). -/
def Obligations.FetchWordRunsTheTableWord : Prop :=
  ∀ (s : State) (nbits w : Nat) (i : Instr), decodeTableWord nbits w = some i →
    step (s.withFetchWord nbits w) = exec i s

/-- With nothing on the port the block waits: the model's reading of R201 (log 3). -/
def Obligations.StepWaitsWithNothingSent : Prop :=
  ∀ s : State, s.port = [] → step s = .next s

/-- A step never refuses, and it stops only on a transaction whose payload is not PayloadLen(header) bytes, which the
transport does not deliver (R90). That stop is the model's choice (log 4). -/
def Obligations.StepStopsOnlyOnMisframedTransaction : Prop :=
  ∀ s : State,
    (∀ r, step s ≠ .refused r) ∧
    ((∃ f, step s = .fault f) ↔
      ∃ w payload rest, s.port = .transaction w payload :: rest ∧ payload.length ≠ payloadLen w)

/-! ## Reset and phase -/

/-- R200: what reset sets, at power-on and by the reset input, which a step takes between two commands. -/
def Obligations.ResetForgetsTheBlock : Prop :=
  let blank (t : State) : Prop :=
    t.phase = .unconstructed ∧ t.status = { last := 0x00#8, cause := 0x00#8, errSeen := false } ∧ t.trace = [] ∧
      ∀ r, t.lines.line r = { mode := .unset, level := .unknown }
  blank State.reset ∧ ∀ (s : State) (rest : List HostInput), s.port = .reset :: rest → ∃ t, step s = .next t ∧ blank t

/-- What a reset does to the model's own fields is the model's choice: the rest of the port and the responses stay
(logs 1, 2), and INIT_LEVEL is drawn afresh, whatever it is (log 5). -/
def Obligations.ResetKeepsPortAndResponses : Prop :=
  ∀ (s : State) (rest : List HostInput), s.port = .reset :: rest →
    ∃ t, step s = .next t ∧ t.port = rest ∧ t.responses = s.responses ∧ t.draws = s.draws + 1 ∧
      ∀ r, t.wireLevel r = Config.initLevel t.draws r

/-- R20: UNCONSTRUCTED after reset; only a successful CONSTRUCT moves the block to READY, and it does; only reset moves
it back. -/
def Obligations.PhaseMovesOnlyByConstructAndReset : Prop :=
  State.reset.phase = .unconstructed ∧
  (∀ n d c l s t, exec (.construct n d c l) s = .next t → t.status.last = 0x00#8 →
    s.phase = .unconstructed ∧ ∃ cfg buf, t.phase = .ready cfg buf) ∧
  (∀ s t, step s = .next t → s.phase = .unconstructed → t.phase ≠ .unconstructed →
    ∃ w payload rest n d c l, s.port = .transaction w payload :: rest ∧
      decodeTransaction w payload = .command (.construct n d c l) ∧ t.status.last = 0x00#8) ∧
  (∀ s t, step s = .next t → s.phase ≠ .unconstructed → t.phase = .unconstructed →
    ∃ rest, s.port = .reset :: rest) ∧
  (∀ s rest, s.port = .reset :: rest → ∃ t, step s = .next t ∧ t.phase = .unconstructed)

/-- From R22: CONSTRUCT gives every field of CFG the operand it was given, and no later step that leaves the block
constructed changes CFG. -/
def Obligations.CfgIsWrittenOnceByConstruct : Prop :=
  (∀ n d c l s t cfg buf, s.phase = .unconstructed → exec (.construct n d c l) s = .next t →
    t.phase = .ready cfg buf → cfg = { n := n, data := d, clock := c, latch := l }) ∧
  (∀ s t cfg buf cfg' buf', s.phase = .ready cfg buf → step s = .next t → t.phase = .ready cfg' buf' → cfg' = cfg)

/-- R23 and R24: CONSTRUCT establishes and every step keeps that, while READY, CFG is legal and BUF has exactly CFG.N
bytes; no step of a constructed block changes CFG or the size of BUF. -/
def Obligations.StepKeepsCfgLegalAndBufSize : Prop :=
  ∀ s t,
    (∀ cfg buf, s.phase = .ready cfg buf →
      (1 ≤ cfg.n.toNat ∧ cfg.n.toNat ≤ 4096 ∧
        cfg.data ≠ cfg.clock ∧ cfg.data ≠ cfg.latch ∧ cfg.clock ≠ cfg.latch) ∧ buf.length = cfg.n.toNat) →
    step s = .next t →
    ∀ cfg buf, t.phase = .ready cfg buf →
      (1 ≤ cfg.n.toNat ∧ cfg.n.toNat ≤ 4096 ∧
        cfg.data ≠ cfg.clock ∧ cfg.data ≠ cfg.latch ∧ cfg.clock ≠ cfg.latch) ∧ buf.length = cfg.n.toNat ∧
      ∀ cfg₀ buf₀, s.phase = .ready cfg₀ buf₀ → cfg = cfg₀ ∧ buf.length = buf₀.length

/-! ## Errors -/

/-- R185: a command that ends in an error leaves PHASE, CFG, BUF, LINES and TRACE, sets ERR_SEEN, and answers its status
and cause codes, which are codes of R180 and R181, with no data. -/
def Obligations.ErrorChangesOnlyStatus : Prop :=
  (∀ e s, raise e s = s.reported e.code e.causeCode) ∧
  ∀ (s t : State) (w : Word) (payload : List Byte) (rest : List HostInput),
    s.port = .transaction w payload :: rest → step s = .next t → t.status.last ≠ 0x00#8 →
    t.phase = s.phase ∧ t.lines = s.lines ∧ t.trace = s.trace ∧ t.status.errSeen = true ∧
      (t.status.last, t.status.cause) ∈ legalCodes ∧
      t.responses = s.responses ++ [{ last := t.status.last, cause := t.status.cause, data := [] }]

/-- R189: the checks run in order: decode, a reserved opcode before a reserved bit; phase; the command's own, in the
order `firstError` lists them. The first that fails decides the status, and a failed check leaves everything but STATUS
as it was; where none fails the command completes. -/
def Obligations.FirstFailingCheckDecides : Prop :=
  (∀ (w : Word) (payload : List Byte), payload.length = payloadLen w →
    w.extractLsb' 28 4 ∈ [0x0#4, 0xC#4, 0xD#4, 0xE#4, 0xF#4] →
    decodeTransaction w payload = .illegal .reservedOpcode) ∧
  ∀ (s : State) (w : Word) (payload : List Byte) (rest : List HostInput),
    s.port = .transaction w payload :: rest → payload.length = payloadLen w →
    match firstError (decodeTransaction w payload) s.phase with
    | some e => step s = .next ({ s with port := rest }.reported e.code e.causeCode)
    | none => ∃ t, step s = .next t ∧ t.status.last = 0x00#8 ∧ t.status.cause = 0x00#8 ∧
        t.status.errSeen = s.status.errSeen

/-- R187: every command but CONSTRUCT is answered NotConstructed while UNCONSTRUCTED, with no effect. -/
def Obligations.CommandBeforeConstructIsRefused : Prop :=
  ∀ (i : Instr) (s : State), s.phase = .unconstructed → (∀ n d c l, i ≠ .construct n d c l) →
    exec i s = .next (s.reported 0x05#8 0x00#8)

/-- R184: SET, GET and SETNOUPDATE raise RangeError when `PIN < 0` or `PIN >= 8*CFG.N`, and write nothing but the
status. -/
def Obligations.PinOutOfRangeIsRangeError : Prop :=
  ∀ (s : State) (cfg : ChannelConfig) (buf : List Byte) (p : Int) (v : Level),
    s.phase = .ready cfg buf → p < 0 ∨ 8 * (cfg.n.toNat : Int) ≤ p →
    exec (.setPin p v) s = .next (s.reported 0x02#8 0x00#8) ∧
    exec (.getPin p) s = .next (s.reported 0x02#8 0x00#8) ∧
    exec (.setNoUpdate p v) s = .next (s.reported 0x02#8 0x00#8)

/-- R186: SETALL raises SizeMismatchError when `LEN != CFG.N`, before any byte of BUF is written. -/
def Obligations.WrongLengthIsSizeMismatch : Prop :=
  ∀ (s : State) (cfg : ChannelConfig) (buf values : List Byte),
    s.phase = .ready cfg buf → values.length ≠ cfg.n.toNat →
    exec (.setAll values) s = .next (s.reported 0x03#8 0x00#8)

/-! ## CONSTRUCT -/

/-- R110 and R111: the checks of CONSTRUCT in their order, and what it does when they pass: CFG, the line set-up, BUF
zero, READY, one transmission, an empty response. All three lines end as low outputs. -/
def Obligations.ConstructInitialisesTheBlock : Prop :=
  (∀ w d c l, w &&& 0xFFFF0000#32 = 0x10000000#32 →
    decodeTransaction w [d, c, l] = .command (.construct (w.extractLsb' 0 16) d c l)) ∧
  ReservedBitsAreIllegal 0x1#4 0x10000000#32 0xFFFF0000#32 ∧
  ∀ (n : BitVec 16) (d c l : PinId) (s : State),
    (∀ cfg buf, s.phase = .ready cfg buf → exec (.construct n d c l) s = .next (s.reported 0x01#8 0x04#8)) ∧
    (s.phase = .unconstructed → n = 0#16 → exec (.construct n d c l) s = .next (s.reported 0x01#8 0x01#8)) ∧
    (s.phase = .unconstructed → 4096 < n.toNat → exec (.construct n d c l) s = .next (s.reported 0x01#8 0x02#8)) ∧
    (s.phase = .unconstructed → 1 ≤ n.toNat → n.toNat ≤ 4096 → d = c ∨ d = l ∨ c = l →
      exec (.construct n d c l) s = .next (s.reported 0x01#8 0x03#8)) ∧
    (s.phase = .unconstructed → 1 ≤ n.toNat → n.toNat ≤ 4096 → d ≠ c → d ≠ l → c ≠ l →
      let cfg : ChannelConfig := { n := n, data := d, clock := c, latch := l }
      let zeros : List Byte := List.replicate n.toNat 0x00#8
      exec (.construct n d c l) s = .next
        { phase := .ready cfg zeros
          lines :=
            { data := { mode := .output, level := .driven false }
              clock := { mode := .output, level := .driven false }
              latch := { mode := .output, level := .driven false } }
          status := { last := 0x00#8, cause := 0x00#8, errSeen := s.status.errSeen }
          trace := s.trace ++
            [.pinMode c, .pinMode d, .pinMode l, .write c false, .write d false, .write l false] ++
            transmitEvents cfg zeros
          port := s.port
          responses := s.responses ++ [{ last := 0x00#8, cause := 0x00#8, data := [] }]
          draws := s.draws })

/-- R112: a successful CONSTRUCT emits exactly 3 PinMode events, 3 low writes, 24*n events for the bits (3 per bit, the
bit 0) and 2 for the latch pulse; the lines end as low outputs. -/
def Obligations.ConstructEmitsItsEventCount : Prop :=
  ∀ (n : BitVec 16) (d c l : PinId) (s : State),
    s.phase = .unconstructed → 1 ≤ n.toNat → n.toNat ≤ 4096 → d ≠ c → d ≠ l → c ≠ l →
    ∃ t, exec (.construct n d c l) s = .next t ∧
      t.trace = s.trace ++ [.pinMode c, .pinMode d, .pinMode l] ++ [.write c false, .write d false, .write l false] ++
        (List.replicate (8 * n.toNat) [LineEvent.write d false, .write c true, .write c false]).flatten ++
        [.write l true, .write l false] ∧
      t.trace.length = s.trace.length + (6 + 24 * n.toNat + 2) ∧
      ∀ r, t.lines.line r = { mode := .output, level := .driven false }

/-- From R113: after a successful CONSTRUCT of a block that has emitted nothing since reset, the outputs of a correctly
wired chain all show 0, whatever the chips held, GETALL returns n zero bytes, and every GET returns 0. The clause on the
outputs rests on the observer, which is PRESUMED (log 12), and on exclusive use of the lines (log 10). -/
def Obligations.AfterConstructEverythingIsZero : Prop :=
  ∀ (n : BitVec 16) (d c l : PinId) (s : State),
    s.Inv → s.phase = .unconstructed → 1 ≤ n.toNat → n.toNat ≤ 4096 → d ≠ c → d ≠ l → c ≠ l →
    ∃ t, exec (.construct n d c l) s = .next t ∧
      (∀ chips : List Chip, chips.length = n.toNat → outputs (t.chips chips) = List.replicate n.toNat 0x00#8) ∧
      exec .getAll t = .next (t.answered (List.replicate n.toNat 0x00#8)) ∧
      ∀ p : Int, 0 ≤ p → p < 8 * (n.toNat : Int) → exec (.getPin p) t = .next (t.answered [0x00#8])

/-! ## Whole-buffer commands -/

/-- R120: SETALL replaces BUF by its payload and transmits, or ends with SizeMismatchError or NotConstructed. -/
def Obligations.SetAllReplacesBufAndTransmits : Prop :=
  (∀ w values, w &&& 0xFFFF0000#32 = 0x20000000#32 → values.length = (w.extractLsb' 0 16).toNat →
    decodeTransaction w values = .command (.setAll values)) ∧
  ReservedBitsAreIllegal 0x2#4 0x20000000#32 0xFFFF0000#32 ∧
  ∀ (s : State) (values : List Byte),
    (s.phase = .unconstructed → exec (.setAll values) s = .next (s.reported 0x05#8 0x00#8)) ∧
    ∀ cfg buf, s.phase = .ready cfg buf →
      (values.length ≠ cfg.n.toNat → exec (.setAll values) s = .next (s.reported 0x03#8 0x00#8)) ∧
      (values.length = cfg.n.toNat → exec (.setAll values) s =
        .next ((transmit cfg values { s with phase := .ready cfg values }).answered []))

/-- R122: GETALL answers a copy of BUF, BUF[0] first, and changes nothing but STATUS. No later command changes the
response it sent. -/
def Obligations.GetAllAnswersBuf : Prop :=
  decodeTransaction 0x30000000#32 [] = .command .getAll ∧
  ReservedBitsAreIllegal 0x3#4 0x30000000#32 0xFFFFFFFF#32 ∧
  ∀ s : State,
    (s.phase = .unconstructed → exec .getAll s = .next (s.reported 0x05#8 0x00#8)) ∧
    ∀ cfg buf, s.phase = .ready cfg buf → buf.length = cfg.n.toNat →
      exec .getAll s = .next (s.answered ((List.range cfg.n.toNat).map fun i => readByte buf i)) ∧
      ∀ (i : Instr) (t u : State), exec .getAll s = .next t → exec i t = .next u → t.responses <+: u.responses

/-- R121: after a successful SETALL d, GETALL returns exactly d. -/
def Obligations.SetAllGetAllRoundTrip : Prop :=
  ∀ (s t : State) (values : List Byte), exec (.setAll values) s = .next t → t.status.last = 0x00#8 →
    exec .getAll t = .next (t.answered values)

/-! ## Pin commands -/

/-- R51: a pin index and its byte and bit; no two pins share a bit; a pin is read from its bit, and writing it
writes that bit alone. -/
def Obligations.PinIndexNamesOneBit : Prop :=
  ∀ (buf : List Byte) (p : Int), 0 ≤ p →
    (byteOf p : Int) = p / 8 ∧ (bitOf p : Int) = p % 8 ∧
    readPin buf p = (buf.getD (p / 8).toNat 0x00#8).getLsbD (p % 8).toNat ∧
    (∀ q : Int, 0 ≤ q → byteOf q = byteOf p → bitOf q = bitOf p → q = p) ∧
    ∀ (v : Level) (i b : Nat), p < 8 * (buf.length : Int) → b < 8 →
      readBit (writePin buf p v) i b = if (i : Int) = p / 8 ∧ (b : Int) = p % 8 then v else readBit buf i b

/-- R130: SET writes exactly the named bit of BUF and transmits, or ends with RangeError or NotConstructed. -/
def Obligations.SetWritesOnePinAndTransmits : Prop :=
  (∀ w, w &&& 0xFFFE0000#32 = 0x40000000#32 →
    decodeTransaction w [] = .command (.setPin (w.extractLsb' 0 16).toInt (w.getLsbD 16))) ∧
  ReservedBitsAreIllegal 0x4#4 0x40000000#32 0xFFFE0000#32 ∧
  ∀ (s : State) (p : Int) (v : Level),
    (s.phase = .unconstructed → exec (.setPin p v) s = .next (s.reported 0x05#8 0x00#8)) ∧
    ∀ cfg buf, s.phase = .ready cfg buf → buf.length = cfg.n.toNat →
      (p < 0 ∨ 8 * (cfg.n.toNat : Int) ≤ p → exec (.setPin p v) s = .next (s.reported 0x02#8 0x00#8)) ∧
      (0 ≤ p → p < 8 * (cfg.n.toNat : Int) →
        ∃ buf', buf'.length = buf.length ∧
          (∀ i b, i < buf.length → b < 8 →
            readBit buf' i b = if (i : Int) = p / 8 ∧ (b : Int) = p % 8 then v else readBit buf i b) ∧
          exec (.setPin p v) s = .next ((transmit cfg buf' { s with phase := .ready cfg buf' }).answered []))

/-- R132: GET answers the committed bit in one byte and changes nothing but STATUS, or ends with RangeError or
NotConstructed. -/
def Obligations.GetAnswersTheBit : Prop :=
  (∀ w, w &&& 0xFFFF0000#32 = 0x50000000#32 →
    decodeTransaction w [] = .command (.getPin (w.extractLsb' 0 16).toInt)) ∧
  ReservedBitsAreIllegal 0x5#4 0x50000000#32 0xFFFF0000#32 ∧
  ∀ (s : State) (p : Int),
    (s.phase = .unconstructed → exec (.getPin p) s = .next (s.reported 0x05#8 0x00#8)) ∧
    ∀ cfg buf, s.phase = .ready cfg buf →
      (p < 0 ∨ 8 * (cfg.n.toNat : Int) ≤ p → exec (.getPin p) s = .next (s.reported 0x02#8 0x00#8)) ∧
      (0 ≤ p → p < 8 * (cfg.n.toNat : Int) → buf.length = cfg.n.toNat →
        exec (.getPin p) s =
          .next (s.answered [if readBit buf (p / 8).toNat (p % 8).toNat then 0x01#8 else 0x00#8]))

/-- R134: SETNOUPDATE writes exactly the named bit of BUF and emits nothing, or ends as SET does. -/
def Obligations.SetNoUpdateWritesOnePin : Prop :=
  (∀ w, w &&& 0xFFFE0000#32 = 0x60000000#32 →
    decodeTransaction w [] = .command (.setNoUpdate (w.extractLsb' 0 16).toInt (w.getLsbD 16))) ∧
  ReservedBitsAreIllegal 0x6#4 0x60000000#32 0xFFFE0000#32 ∧
  ∀ (s : State) (p : Int) (v : Level),
    (s.phase = .unconstructed → exec (.setNoUpdate p v) s = .next (s.reported 0x05#8 0x00#8)) ∧
    ∀ cfg buf, s.phase = .ready cfg buf → buf.length = cfg.n.toNat →
      (p < 0 ∨ 8 * (cfg.n.toNat : Int) ≤ p → exec (.setNoUpdate p v) s = .next (s.reported 0x02#8 0x00#8)) ∧
      (0 ≤ p → p < 8 * (cfg.n.toNat : Int) →
        ∃ buf', buf'.length = buf.length ∧
          (∀ i b, i < buf.length → b < 8 →
            readBit buf' i b = if (i : Int) = p / 8 ∧ (b : Int) = p % 8 then v else readBit buf i b) ∧
          exec (.setNoUpdate p v) s = .next ({ s with phase := .ready cfg buf' }.answered []))

/-- R133: after SET p, v or SETNOUPDATE p, v, GET p returns v and GET q returns its previous value for every valid
q ≠ p. -/
def Obligations.PinsAreIndependent : Prop :=
  ∀ (s : State) (cfg : ChannelConfig) (buf : List Byte) (p : Int) (v : Level) (i : Instr),
    s.phase = .ready cfg buf → buf.length = cfg.n.toNat → 0 ≤ p → p < 8 * (cfg.n.toNat : Int) →
    i = .setPin p v ∨ i = .setNoUpdate p v →
    ∃ t, exec i s = .next t ∧
      exec (.getPin p) t = .next (t.answered [if v then 0x01#8 else 0x00#8]) ∧
      ∀ q : Int, 0 ≤ q → q < 8 * (cfg.n.toNat : Int) → q ≠ p →
        ∃ x, exec (.getPin q) s = .next (s.answered [x]) ∧ exec (.getPin q) t = .next (t.answered [x])

/-- R55: pin commands and byte-vector commands use the same bits: GETALL after SET, GET after SETALL. -/
def Obligations.PinAndByteViewsAgree : Prop :=
  ∀ (s : State) (cfg : ChannelConfig) (buf : List Byte) (p : Int),
    s.phase = .ready cfg buf → buf.length = cfg.n.toNat → 0 ≤ p → p < 8 * (cfg.n.toNat : Int) →
    (∀ v, ∃ t buf', exec (.setPin p v) s = .next t ∧ exec .getAll t = .next (t.answered buf') ∧
      buf'.length = buf.length ∧
      ∀ i b, i < buf.length → b < 8 → (buf'.getD i 0x00#8).getLsbD b =
        if (i : Int) = p / 8 ∧ (b : Int) = p % 8 then v else (buf.getD i 0x00#8).getLsbD b) ∧
    (∀ d : List Byte, d.length = cfg.n.toNat → ∃ t, exec (.setAll d) s = .next t ∧
      exec (.getPin p) t = .next (t.answered
        [if (d.getD (p / 8).toNat 0x00#8).getLsbD (p % 8).toNat then 0x01#8 else 0x00#8]))

/-- R135: a run of SETNOUPDATE commands and one UPDATEREGISTERS leaves the BUF and the latched state of the same run of
SET commands, with one transmission in place of one per command. -/
def Obligations.BatchEqualsRunOfSets : Prop :=
  ∀ (s : State) (cfg : ChannelConfig) (buf : List Byte) (changes : List (Int × Level)),
    s.Inv → s.phase = .ready cfg buf → changes ≠ [] →
    (∀ x ∈ changes, 0 ≤ x.1 ∧ x.1 < 8 * (cfg.n.toNat : Int)) →
    ∃ t u, runCommands (changes.map fun x => .setPin x.1 x.2) s = .next t ∧
      runCommands ((changes.map fun x => .setNoUpdate x.1 x.2) ++ [.updateRegisters]) s = .next u ∧
      ∃ (buf' : List Byte) (history : List (List Byte)), t.phase = .ready cfg buf' ∧ u.phase = .ready cfg buf' ∧
        t.sentBits = some (stream buf') ∧ u.sentBits = some (stream buf') ∧
        history.length = changes.length ∧ history.getLast? = some buf' ∧
        t.trace = s.trace ++ history.flatMap (transmitEvents cfg) ∧
        u.trace = s.trace ++ transmitEvents cfg buf'

/-! ## Fill commands -/

/-- R140: SETALLLOW makes every byte 0x00 and transmits. -/
def Obligations.SetAllLowClearsAndTransmits : Prop :=
  decodeTransaction 0x70000000#32 [] = .command .setAllLow ∧
  ReservedBitsAreIllegal 0x7#4 0x70000000#32 0xFFFFFFFF#32 ∧
  ∀ s : State,
    (s.phase = .unconstructed → exec .setAllLow s = .next (s.reported 0x05#8 0x00#8)) ∧
    ∀ cfg buf, s.phase = .ready cfg buf →
      let low : List Byte := List.replicate cfg.n.toNat 0x00#8
      exec .setAllLow s = .next ((transmit cfg low { s with phase := .ready cfg low }).answered [])

/-- R141: SETALLHIGH makes every byte 0xFF and transmits. -/
def Obligations.SetAllHighSetsAndTransmits : Prop :=
  decodeTransaction 0x80000000#32 [] = .command .setAllHigh ∧
  ReservedBitsAreIllegal 0x8#4 0x80000000#32 0xFFFFFFFF#32 ∧
  ∀ s : State,
    (s.phase = .unconstructed → exec .setAllHigh s = .next (s.reported 0x05#8 0x00#8)) ∧
    ∀ cfg buf, s.phase = .ready cfg buf →
      let high : List Byte := List.replicate cfg.n.toNat 0xFF#8
      exec .setAllHigh s = .next ((transmit cfg high { s with phase := .ready cfg high }).answered [])

/-- R142: SETALLLOWNOUPDATE makes every byte 0x00 and emits nothing. -/
def Obligations.SetAllLowNoUpdateClears : Prop :=
  decodeTransaction 0x90000000#32 [] = .command .setAllLowNoUpdate ∧
  ReservedBitsAreIllegal 0x9#4 0x90000000#32 0xFFFFFFFF#32 ∧
  ∀ s : State,
    (s.phase = .unconstructed → exec .setAllLowNoUpdate s = .next (s.reported 0x05#8 0x00#8)) ∧
    ∀ cfg buf, s.phase = .ready cfg buf →
      exec .setAllLowNoUpdate s =
        .next ({ s with phase := .ready cfg (List.replicate cfg.n.toNat 0x00#8) }.answered [])

/-- R143: SETALLHIGHNOUPDATE makes every byte 0xFF. With HIGH_NOUPDATE_TRANSMITS false, which is this hardware, it emits
nothing; with true it behaves as SETALLHIGH. -/
def Obligations.SetAllHighNoUpdateSets : Prop :=
  decodeTransaction 0xA0000000#32 [] = .command .setAllHighNoUpdate ∧
  ReservedBitsAreIllegal 0xA#4 0xA0000000#32 0xFFFFFFFF#32 ∧
  ∀ s : State,
    (s.phase = .unconstructed → exec .setAllHighNoUpdate s = .next (s.reported 0x05#8 0x00#8)) ∧
    (∀ cfg buf, s.phase = .ready cfg buf →
      exec .setAllHighNoUpdate s =
        .next ({ s with phase := .ready cfg (List.replicate cfg.n.toNat 0xFF#8) }.answered [])) ∧
    highNoUpdate false s = exec .setAllHighNoUpdate s ∧
    highNoUpdate true s = exec .setAllHigh s

/-! ## Transmission -/

/-- R150: UPDATEREGISTERS transmits BUF as it stands, and changes LINES, TRACE and STATUS alone. -/
def Obligations.UpdateRegistersTransmitsBuf : Prop :=
  decodeTransaction 0xB0000000#32 [] = .command .updateRegisters ∧
  ReservedBitsAreIllegal 0xB#4 0xB0000000#32 0xFFFFFFFF#32 ∧
  ∀ s : State,
    (s.phase = .unconstructed → exec .updateRegisters s = .next (s.reported 0x05#8 0x00#8)) ∧
    ∀ cfg buf, s.phase = .ready cfg buf →
      exec .updateRegisters s = .next ((transmit cfg buf s).answered []) ∧
      (transmit cfg buf s).phase = s.phase ∧ (transmit cfg buf s).status = s.status

/-- R154: the 24 line events of ShiftOutByte(x). -/
def Obligations.ShiftOutByteEmitsItsEvents : Prop :=
  ∀ (cfg : ChannelConfig) (x : Byte), shiftOutByte cfg x =
    [.write cfg.data (x.getLsbD 7), .write cfg.clock true, .write cfg.clock false,
     .write cfg.data (x.getLsbD 6), .write cfg.clock true, .write cfg.clock false,
     .write cfg.data (x.getLsbD 5), .write cfg.clock true, .write cfg.clock false,
     .write cfg.data (x.getLsbD 4), .write cfg.clock true, .write cfg.clock false,
     .write cfg.data (x.getLsbD 3), .write cfg.clock true, .write cfg.clock false,
     .write cfg.data (x.getLsbD 2), .write cfg.clock true, .write cfg.clock false,
     .write cfg.data (x.getLsbD 1), .write cfg.clock true, .write cfg.clock false,
     .write cfg.data (x.getLsbD 0), .write cfg.clock true, .write cfg.clock false]

/-- R153: the logical contract of ShiftOutByte(x): the DATA levels at the CLOCK rising edges are x[7] down to x[0]; each
bit gets one clock pulse, and CLOCK is low again before the next bit; only DATA and CLOCK are touched. -/
def Obligations.ShiftOutByteKeepsItsContract : Prop :=
  ∀ (cfg : ChannelConfig) (x : Byte), cfg.Legal →
    (∀ m : Sampler, ((shiftOutByte cfg x).foldl (Sampler.read cfg) m).shifted = m.shifted ++
      [x.getLsbD 7, x.getLsbD 6, x.getLsbD 5, x.getLsbD 4, x.getLsbD 3, x.getLsbD 2, x.getLsbD 1, x.getLsbD 0]) ∧
    (∀ k, k < 8 → ((shiftOutByte cfg x).drop (3 * k)).take 3 =
      [.write cfg.data (x.getLsbD (7 - k)), .write cfg.clock true, .write cfg.clock false]) ∧
    (shiftOutByte cfg x).length = 3 * 8 ∧
    (∀ l : Lines, ((shiftOutByte cfg x).foldl (Lines.apply cfg) l).latch = l.latch) ∧
    ∀ e ∈ shiftOutByte cfg x, (∃ b, e = .write cfg.data b) ∨ ∃ b, e = .write cfg.clock b

/-- R54: bytes leave from the last to the first, bits most significant first: element k of the stream is
`BUF[N-1 - k/8][7 - k%8]`, and the stream has 8*N elements. These are the DATA levels at the CLOCK rising edges of the
shift phase. -/
def Obligations.StreamSendsLastByteFirst : Prop :=
  (∀ buf : List Byte, stream buf =
    (List.range (8 * buf.length)).map fun k => readBit buf (buf.length - 1 - k / 8) (7 - k % 8)) ∧
  (∀ buf : List Byte, (stream buf).length = 8 * buf.length) ∧
  ∀ (cfg : ChannelConfig) (buf : List Byte) (m : Sampler), cfg.Legal →
    ((shiftPhase cfg buf).foldl (Sampler.read cfg) m).shifted = m.shifted ++ stream buf

/-- R155: one transmission emits exactly 24*N + 2 events: for each bit of the stream, DATA, CLOCK high, CLOCK low; then
the latch pulse. They are appended to TRACE. -/
def Obligations.TransmissionEmitsTheStream : Prop :=
  ∀ (cfg : ChannelConfig) (buf : List Byte) (s : State), buf.length = cfg.n.toNat →
    ∃ es, (transmit cfg buf s).trace = s.trace ++ es ∧ es.length = 24 * cfg.n.toNat + 2 ∧
      es = ((List.range (8 * cfg.n.toNat)).flatMap fun k =>
          [.write cfg.data (readBit buf (cfg.n.toNat - 1 - k / 8) (7 - k % 8)),
           .write cfg.clock true, .write cfg.clock false]) ++
        [.write cfg.latch true, .write cfg.latch false]

/-- From R156: LATCH stays low during the whole shift phase, no event of which writes it; it rises and falls with the last two
events of a transmission; the set-up of CONSTRUCT has driven it low; and no chip's output shows a partly shifted
state. The last clause rests on the observer, which is PRESUMED (log 12), and on exclusive use of the lines (log 10). -/
def Obligations.LatchMovesOnlyAtTheEnd : Prop :=
  ∀ (cfg : ChannelConfig) (buf : List Byte), cfg.Legal →
    (∀ (l : Lines) (k : Nat), l.latch.level = .driven false → k + 2 ≤ (transmitEvents cfg buf).length →
      (((transmitEvents cfg buf).take k).foldl (Lines.apply cfg) l).latch.level = .driven false) ∧
    (∃ es, transmitEvents cfg buf = es ++ [.write cfg.latch true, .write cfg.latch false] ∧
      ∀ e ∈ es, ∀ b, e ≠ .write cfg.latch b) ∧
    (∀ l : Lines, ((setupEvents cfg).foldl (Lines.apply cfg) l).latch.level = .driven false) ∧
    ∀ (init : LineRole → Level) (o : Observer) (k : Nat), k + 2 ≤ (transmitEvents cfg buf).length →
      outputs (o.watchAll init cfg ((transmitEvents cfg buf).take k)).chips = outputs o.chips

/-- R157: between commands of a constructed block CLOCK and LATCH are low and DATA holds `BUF[0][0]` as BUF stood at the
most recent transmission. -/
def Obligations.LinesRestBetweenCommands : Prop :=
  ∀ (s : State) (cfg : ChannelConfig) (buf : List Byte), s.Inv → s.phase = .ready cfg buf →
    s.lines.clock.level = .driven false ∧ s.lines.latch.level = .driven false ∧
    (∀ r, (s.lines.line r).mode = .output) ∧
    ∃ sent, sent.length = cfg.n.toNat ∧ s.sentBits = some (stream sent) ∧
      s.lines.data.level = .driven (readBit sent 0 0)

/-- R165: the two bit streams of the chain-order example, from any state of a constructed two-chip block. -/
def Obligations.ChainOrderShowsInTheStream : Prop :=
  stream [0x01#8, 0x00#8] =
      [false, false, false, false, false, false, false, false, false, false, false, false, false, false, false, true] ∧
  stream [0x00#8, 0x01#8] =
      [false, false, false, false, false, false, false, true, false, false, false, false, false, false, false, false] ∧
  ∀ (s : State) (cfg : ChannelConfig) (buf : List Byte), s.Inv → s.phase = .ready cfg buf → cfg.n = 2#16 →
    ∀ d : List Byte, d = [0x01#8, 0x00#8] ∨ d = [0x00#8, 0x01#8] →
      ∃ t, exec (.setAll d) s = .next t ∧ t.sentBits = some (stream d)

/-- R28: an event that names the line of role r by its identifier sets that line's mode or level, and leaves the lines of
the other roles alone. -/
def Obligations.EventMovesTheLineItNames : Prop :=
  ∀ (cfg : ChannelConfig) (l : Lines) (r : LineRole), cfg.Legal →
    ((l.apply cfg (.pinMode (cfg.pin r))).line r = { l.line r with mode := .output } ∧
      ∀ q, q ≠ r → (l.apply cfg (.pinMode (cfg.pin r))).line q = l.line q) ∧
    ∀ b, (l.apply cfg (.write (cfg.pin r) b)).line r = { l.line r with level := .driven b } ∧
      ∀ q, q ≠ r → (l.apply cfg (.write (cfg.pin r) b)).line q = l.line q

/-! ## Frames -/

/-- R59: GET and GETALL change nothing but STATUS; the NoUpdate commands change BUF and STATUS only; the transmitting
commands, when they complete, end with a transmission; two UPDATEREGISTERS in a row append the same events twice. A
response is sent in every case. -/
def Obligations.SideEffectsOfEachKindOfCommand : Prop :=
  (∀ (i : Instr) (s : State), (i = .getAll ∨ ∃ p, i = .getPin p) →
    ∃ st r, exec i s = .next { s with status := st, responses := s.responses ++ [r] }) ∧
  (∀ (i : Instr) (s : State),
    ((∃ p v, i = .setNoUpdate p v) ∨ i = .setAllLowNoUpdate ∨ i = .setAllHighNoUpdate) →
    ∃ ph st r, exec i s = .next { s with phase := ph, status := st, responses := s.responses ++ [r] } ∧
      (s.phase = .unconstructed → ph = .unconstructed) ∧
      ∀ cfg buf, s.phase = .ready cfg buf → ∃ buf', ph = .ready cfg buf') ∧
  (∀ (i : Instr) (s t : State),
    ((∃ p v, i = .setPin p v) ∨ (∃ d, i = .setAll d) ∨ i = .setAllLow ∨ i = .setAllHigh ∨ i = .updateRegisters) →
    exec i s = .next t → t.status.last = 0x00#8 →
    ∃ cfg buf, t.phase = .ready cfg buf ∧ t.trace = s.trace ++ transmitEvents cfg buf) ∧
  (∀ (s : State) (cfg : ChannelConfig) (buf : List Byte), s.phase = .ready cfg buf →
    ∃ es t u, es ≠ [] ∧ exec .updateRegisters s = .next t ∧ t.trace = s.trace ++ es ∧
      exec .updateRegisters t = .next u ∧ u.trace = t.trace ++ es)

/-- The frame of every command (R29, R30, R92): it answers a next state; TRACE only grows; ERR_SEEN stays set; exactly
one response is sent, with the status and cause the command leaves in STATUS. The rest of the port and the draw index
are the model's own fields (logs 1, 5), and no command touches them. -/
def Obligations.FrameOfEveryCommand : Prop :=
  ∀ (i : Instr) (s : State), ∃ t, exec i s = .next t ∧
    (∃ es, t.trace = s.trace ++ es) ∧
    (s.status.errSeen = true → t.status.errSeen = true) ∧
    (t.status.last ≠ 0x00#8 → t.status.errSeen = true) ∧
    (∃ data, t.responses = s.responses ++ [{ last := t.status.last, cause := t.status.cause, data := data }]) ∧
    t.port = s.port ∧ t.draws = s.draws

/-- R92: the data of a response: one byte 0x00 or 0x01 for a GET that succeeds, CFG.N bytes for a GETALL that succeeds,
none for every other command and for every error. -/
def Obligations.ResponseDataByCommand : Prop :=
  ∀ (i : Instr) (s : State), s.phase.Legal →
    ∃ t data, exec i s = .next t ∧
      t.responses = s.responses ++ [{ last := t.status.last, cause := t.status.cause, data := data }] ∧
      (t.status.last ≠ 0x00#8 → data = []) ∧
      (t.status.last = 0x00#8 → (∃ p, i = .getPin p) → data = [0x00#8] ∨ data = [0x01#8]) ∧
      (t.status.last = 0x00#8 → i = .getAll → ∀ cfg buf, s.phase = .ready cfg buf →
        data.length = cfg.n.toNat ∧ data = buf) ∧
      ((∀ p, i ≠ .getPin p) → i ≠ .getAll → data = [])

/-! ## Committed and latched state, and the downstream chips -/

/-- From R160: a command that transmitted leaves SENT = BUF; any other command, and any error, leaves SENT as it was.
That SENT is given by its bits, and that there is none before the first transmission, where R160 calls it undefined, is
the model's reading (log 12, DEDUCED). -/
def Obligations.SentFollowsTheLastTransmission : Prop :=
  ∀ (i : Instr) (s t : State), s.Inv → exec i s = .next t →
    (transmits i = true → t.status.last = 0x00#8 →
      ∃ cfg buf, t.phase = .ready cfg buf ∧ t.sentBits = some (stream buf)) ∧
    (transmits i = false ∨ t.status.last ≠ 0x00#8 → t.sentBits = s.sentBits) ∧
    (s.phase = .unconstructed → s.sentBits = none)

/-- R161: read as a ghost function of TRACE, SENT is the stream of the register file sent last, 8*N bits. -/
def Obligations.SentIsReadFromTrace : Prop :=
  ∀ (cfg : ChannelConfig) (history : List (List Byte)) (sent : List Byte), cfg.Legal → sent.length = cfg.n.toNat →
    Machine.sentBits cfg (traceOf cfg (history ++ [sent])) = some (stream sent) ∧
    (stream sent).length = 8 * cfg.n.toNat

/-- From R163 and R164: one transmission, watched by a chain of K chips whatever it held: no output changes before the LATCH
rising edge; after it chip k holds and shows `BUF[k]` for k < N, and the old stage k - N beyond; on a correctly wired
chain (K = N) the outputs show BUF, output p % 8 of chip p / 8 showing pin p. It rests on the observer, which is PRESUMED
(log 12), and on exclusive use of the lines (log 10). -/
def Obligations.TransmissionCommitsTheChain : Prop :=
  ∀ (init : LineRole → Level) (cfg : ChannelConfig) (buf : List Byte) (o : Observer),
    cfg.Legal → buf.length = cfg.n.toNat →
    o.lines.clock.level = .driven false → o.lines.latch.level = .driven false →
    (∀ k, k + 2 ≤ (transmitEvents cfg buf).length →
      outputs (o.watchAll init cfg ((transmitEvents cfg buf).take k)).chips = outputs o.chips) ∧
    stages (o.watchAll init cfg (transmitEvents cfg buf)).chips = (buf ++ stages o.chips).take o.chips.length ∧
    outputs (o.watchAll init cfg (transmitEvents cfg buf)).chips = (buf ++ stages o.chips).take o.chips.length ∧
    (o.chips.length = cfg.n.toNat → outputs (o.watchAll init cfg (transmitEvents cfg buf)).chips = buf ∧
      ∀ p : Int, 0 ≤ p → p < 8 * (cfg.n.toNat : Int) →
        readBit (outputs (o.watchAll init cfg (transmitEvents cfg buf)).chips) (p / 8).toNat (p % 8).toNat =
          readPin buf p)

/-- The outputs of a correctly wired chain show SENT in every state of a constructed block, whatever the chips held at
reset (R61, R161, R163). It rests on the observer (log 12) and on the host's exclusive use of the lines (log 10). -/
def Obligations.OutputsShowSent : Prop :=
  ∀ (s : State) (cfg : ChannelConfig) (buf : List Byte) (chips : List Chip),
    s.Inv → s.phase = .ready cfg buf → chips.length = cfg.n.toNat →
    ∃ sent, sent.length = cfg.n.toNat ∧ s.sentBits = some (stream sent) ∧ outputs (s.chips chips) = sent

/-- From R212: after a NoUpdate command, and any further commands that do not transmit, SENT and the outputs are as before
it; the outputs of a correctly wired chain show SENT; and a completed transmitting command makes them show BUF. The
clauses on the outputs rest on the observer, which is PRESUMED (log 12), and on exclusive use of the lines (log 10). -/
def Obligations.OutputsAreStaleUntilATransmission : Prop :=
  (∀ (is : List Instr) (s : State) (chips : List Chip), (∀ i ∈ is, transmits i = false) →
    ∃ t, runCommands is s = .next t ∧ t.sentBits = s.sentBits ∧
      outputs (t.chips chips) = outputs (s.chips chips)) ∧
  (∀ (s : State) (chips : List Chip) (cfg : ChannelConfig) (buf : List Byte),
    s.Inv → s.phase = .ready cfg buf → chips.length = cfg.n.toNat →
    ∃ sent, s.sentBits = some (stream sent) ∧ outputs (s.chips chips) = sent) ∧
  (∀ (i : Instr) (s t : State) (chips : List Chip) (cfg : ChannelConfig) (buf : List Byte),
    s.Inv → exec i s = .next t → transmits i = true → t.status.last = 0x00#8 →
    t.phase = .ready cfg buf → chips.length = cfg.n.toNat → outputs (t.chips chips) = buf)

/-- From R111: the chips do not act on the set-up of CONSTRUCT, whatever the identifiers, the lines and the chips. It rests
on the observer, which is PRESUMED (log 12). -/
def Obligations.SetupMovesNoChip : Prop :=
  ∀ (n : BitVec 16) (d c l : PinId) (init : LineRole → Level) (o : Observer),
    (Observer.watchAll init { n := n, data := d, clock := c, latch := l } o
      [.pinMode c, .pinMode d, .pinMode l, .write c false, .write d false, .write l false]).chips = o.chips

/-! ## The invariant -/

/-- The invariant holds at reset. -/
def Obligations.ResetSatisfiesTheInvariant : Prop := State.reset.Inv

/-- Every step keeps the invariant, from every state that has it: while READY, CFG is legal and BUF has CFG.N bytes (R23,
R24); STATUS holds codes of R180 and R181, and an error has set ERR_SEEN (R29); TRACE is the set-up and whole
transmissions of CFG.N bytes (R30, R151), and LINES is what its events left (R28). -/
def Obligations.StepKeepsTheInvariant : Prop :=
  ∀ s t : State, s.Inv → step s = .next t → t.Inv
end

