-- ==== Sys2Proof/Laws/State.lean ====
section
/-! SUPPORT. What each shared update of State does to each field, one lemma per field per update. -/

namespace Sys2Proof.Machine

@[simp] theorem emitAll_phase (cfg : ChannelConfig) (es : List LineEvent) (s : State) :
    (emitAll cfg es s).phase = s.phase := rfl

@[simp] theorem emitAll_lines (cfg : ChannelConfig) (es : List LineEvent) (s : State) :
    (emitAll cfg es s).lines = es.foldl (Lines.apply cfg) s.lines := rfl

@[simp] theorem emitAll_status (cfg : ChannelConfig) (es : List LineEvent) (s : State) :
    (emitAll cfg es s).status = s.status := rfl

@[simp] theorem emitAll_trace (cfg : ChannelConfig) (es : List LineEvent) (s : State) :
    (emitAll cfg es s).trace = s.trace ++ es := rfl

@[simp] theorem emitAll_port (cfg : ChannelConfig) (es : List LineEvent) (s : State) :
    (emitAll cfg es s).port = s.port := rfl

@[simp] theorem emitAll_responses (cfg : ChannelConfig) (es : List LineEvent) (s : State) :
    (emitAll cfg es s).responses = s.responses := rfl

@[simp] theorem emitAll_draws (cfg : ChannelConfig) (es : List LineEvent) (s : State) :
    (emitAll cfg es s).draws = s.draws := rfl

@[simp] theorem transmit_phase (cfg : ChannelConfig) (buf : List Byte) (s : State) :
    (transmit cfg buf s).phase = s.phase := rfl

@[simp] theorem transmit_lines (cfg : ChannelConfig) (buf : List Byte) (s : State) :
    (transmit cfg buf s).lines = (transmitEvents cfg buf).foldl (Lines.apply cfg) s.lines := rfl

@[simp] theorem transmit_status (cfg : ChannelConfig) (buf : List Byte) (s : State) :
    (transmit cfg buf s).status = s.status := rfl

@[simp] theorem transmit_trace (cfg : ChannelConfig) (buf : List Byte) (s : State) :
    (transmit cfg buf s).trace = s.trace ++ transmitEvents cfg buf := rfl

@[simp] theorem transmit_port (cfg : ChannelConfig) (buf : List Byte) (s : State) :
    (transmit cfg buf s).port = s.port := rfl

@[simp] theorem transmit_responses (cfg : ChannelConfig) (buf : List Byte) (s : State) :
    (transmit cfg buf s).responses = s.responses := rfl

@[simp] theorem transmit_draws (cfg : ChannelConfig) (buf : List Byte) (s : State) :
    (transmit cfg buf s).draws = s.draws := rfl

@[simp] theorem setBuf_phase (cfg : ChannelConfig) (buf : List Byte) (s : State) :
    (setBuf cfg buf s).phase = .ready cfg buf := rfl

@[simp] theorem setBuf_lines (cfg : ChannelConfig) (buf : List Byte) (s : State) :
    (setBuf cfg buf s).lines = s.lines := rfl

@[simp] theorem setBuf_status (cfg : ChannelConfig) (buf : List Byte) (s : State) :
    (setBuf cfg buf s).status = s.status := rfl

@[simp] theorem setBuf_trace (cfg : ChannelConfig) (buf : List Byte) (s : State) :
    (setBuf cfg buf s).trace = s.trace := rfl

@[simp] theorem setBuf_port (cfg : ChannelConfig) (buf : List Byte) (s : State) :
    (setBuf cfg buf s).port = s.port := rfl

@[simp] theorem setBuf_responses (cfg : ChannelConfig) (buf : List Byte) (s : State) :
    (setBuf cfg buf s).responses = s.responses := rfl

@[simp] theorem setBuf_draws (cfg : ChannelConfig) (buf : List Byte) (s : State) :
    (setBuf cfg buf s).draws = s.draws := rfl

@[simp] theorem storeAndTransmit_phase (cfg : ChannelConfig) (buf : List Byte) (s : State) :
    (storeAndTransmit cfg buf s).phase = .ready cfg buf := rfl

@[simp] theorem storeAndTransmit_lines (cfg : ChannelConfig) (buf : List Byte) (s : State) :
    (storeAndTransmit cfg buf s).lines = (transmitEvents cfg buf).foldl (Lines.apply cfg) s.lines := rfl

@[simp] theorem storeAndTransmit_status (cfg : ChannelConfig) (buf : List Byte) (s : State) :
    (storeAndTransmit cfg buf s).status = s.status := rfl

@[simp] theorem storeAndTransmit_trace (cfg : ChannelConfig) (buf : List Byte) (s : State) :
    (storeAndTransmit cfg buf s).trace = s.trace ++ transmitEvents cfg buf := rfl

@[simp] theorem storeAndTransmit_port (cfg : ChannelConfig) (buf : List Byte) (s : State) :
    (storeAndTransmit cfg buf s).port = s.port := rfl

@[simp] theorem storeAndTransmit_responses (cfg : ChannelConfig) (buf : List Byte) (s : State) :
    (storeAndTransmit cfg buf s).responses = s.responses := rfl

@[simp] theorem storeAndTransmit_draws (cfg : ChannelConfig) (buf : List Byte) (s : State) :
    (storeAndTransmit cfg buf s).draws = s.draws := rfl

@[simp] theorem respondOk_phase (data : List Byte) (s : State) :
    (respondOk data s).phase = s.phase := rfl

@[simp] theorem respondOk_lines (data : List Byte) (s : State) :
    (respondOk data s).lines = s.lines := rfl

@[simp] theorem respondOk_status (data : List Byte) (s : State) :
    (respondOk data s).status = s.status.completed := rfl

@[simp] theorem respondOk_trace (data : List Byte) (s : State) :
    (respondOk data s).trace = s.trace := rfl

@[simp] theorem respondOk_port (data : List Byte) (s : State) :
    (respondOk data s).port = s.port := rfl

@[simp] theorem respondOk_responses (data : List Byte) (s : State) :
    (respondOk data s).responses = s.responses ++ [{ last := okCode, cause := 0x00#8, data := data }] := rfl

@[simp] theorem respondOk_draws (data : List Byte) (s : State) :
    (respondOk data s).draws = s.draws := rfl

@[simp] theorem raise_phase (e : CommandError) (s : State) :
    (raise e s).phase = s.phase := rfl

@[simp] theorem raise_lines (e : CommandError) (s : State) :
    (raise e s).lines = s.lines := rfl

@[simp] theorem raise_status (e : CommandError) (s : State) :
    (raise e s).status = s.status.failed e := rfl

@[simp] theorem raise_trace (e : CommandError) (s : State) :
    (raise e s).trace = s.trace := rfl

@[simp] theorem raise_port (e : CommandError) (s : State) :
    (raise e s).port = s.port := rfl

@[simp] theorem raise_responses (e : CommandError) (s : State) :
    (raise e s).responses = s.responses ++ [{ last := e.code, cause := e.causeCode, data := [] }] := rfl

@[simp] theorem raise_draws (e : CommandError) (s : State) :
    (raise e s).draws = s.draws := rfl

@[simp] theorem takeReset_phase (s : State) :
    (takeReset s).phase = .unconstructed := rfl

@[simp] theorem takeReset_lines (s : State) :
    (takeReset s).lines = .reset := rfl

@[simp] theorem takeReset_status (s : State) :
    (takeReset s).status = .reset := rfl

@[simp] theorem takeReset_trace (s : State) :
    (takeReset s).trace = [] := rfl

@[simp] theorem takeReset_port (s : State) :
    (takeReset s).port = s.port := rfl

@[simp] theorem takeReset_responses (s : State) :
    (takeReset s).responses = s.responses := rfl

@[simp] theorem takeReset_draws (s : State) :
    (takeReset s).draws = s.draws + 1 := rfl

@[simp] theorem withFetchWord_phase (s : State) (nbits w : Nat) :
    (s.withFetchWord nbits w).phase = s.phase := rfl

@[simp] theorem withFetchWord_lines (s : State) (nbits w : Nat) :
    (s.withFetchWord nbits w).lines = s.lines := rfl

@[simp] theorem withFetchWord_status (s : State) (nbits w : Nat) :
    (s.withFetchWord nbits w).status = s.status := rfl

@[simp] theorem withFetchWord_trace (s : State) (nbits w : Nat) :
    (s.withFetchWord nbits w).trace = s.trace := rfl

@[simp] theorem withFetchWord_port (s : State) (nbits w : Nat) :
    (s.withFetchWord nbits w).port = .transaction (tableHeader nbits w) (tablePayload nbits w) :: s.port := rfl

@[simp] theorem withFetchWord_responses (s : State) (nbits w : Nat) :
    (s.withFetchWord nbits w).responses = s.responses := rfl

@[simp] theorem withFetchWord_draws (s : State) (nbits w : Nat) :
    (s.withFetchWord nbits w).draws = s.draws := rfl

@[simp] theorem reported_phase (s : State) (last cause : Byte) :
    (s.reported last cause).phase = s.phase := rfl

@[simp] theorem reported_lines (s : State) (last cause : Byte) :
    (s.reported last cause).lines = s.lines := rfl

@[simp] theorem reported_status (s : State) (last cause : Byte) :
    (s.reported last cause).status = { last := last, cause := cause, errSeen := true } := rfl

@[simp] theorem reported_trace (s : State) (last cause : Byte) :
    (s.reported last cause).trace = s.trace := rfl

@[simp] theorem reported_port (s : State) (last cause : Byte) :
    (s.reported last cause).port = s.port := rfl

@[simp] theorem reported_responses (s : State) (last cause : Byte) :
    (s.reported last cause).responses = s.responses ++ [{ last := last, cause := cause, data := [] }] := rfl

@[simp] theorem reported_draws (s : State) (last cause : Byte) :
    (s.reported last cause).draws = s.draws := rfl

@[simp] theorem answered_phase (s : State) (data : List Byte) :
    (s.answered data).phase = s.phase := rfl

@[simp] theorem answered_lines (s : State) (data : List Byte) :
    (s.answered data).lines = s.lines := rfl

@[simp] theorem answered_status (s : State) (data : List Byte) :
    (s.answered data).status = { last := 0x00#8, cause := 0x00#8, errSeen := s.status.errSeen } := rfl

@[simp] theorem answered_trace (s : State) (data : List Byte) :
    (s.answered data).trace = s.trace := rfl

@[simp] theorem answered_port (s : State) (data : List Byte) :
    (s.answered data).port = s.port := rfl

@[simp] theorem answered_responses (s : State) (data : List Byte) :
    (s.answered data).responses = s.responses ++ [{ last := 0x00#8, cause := 0x00#8, data := data }] := rfl

@[simp] theorem answered_draws (s : State) (data : List Byte) :
    (s.answered data).draws = s.draws := rfl

@[simp] theorem completed_last (st : Status) : st.completed.last = 0x00#8 := rfl

@[simp] theorem completed_cause (st : Status) : st.completed.cause = 0x00#8 := rfl

@[simp] theorem completed_errSeen (st : Status) : st.completed.errSeen = st.errSeen := rfl

@[simp] theorem failed_last (st : Status) (e : CommandError) : (st.failed e).last = e.code := rfl

@[simp] theorem failed_cause (st : Status) (e : CommandError) : (st.failed e).cause = e.causeCode := rfl

@[simp] theorem failed_errSeen (st : Status) (e : CommandError) : (st.failed e).errSeen = true := rfl

/-- Ending a command with an error is what R185 reports. -/
theorem raise_eq_reported (e : CommandError) (s : State) : raise e s = s.reported e.code e.causeCode := rfl

/-- Completing a command is what R92 answers. -/
theorem respondOk_eq_answered (data : List Byte) (s : State) : respondOk data s = s.answered data := rfl

end Sys2Proof.Machine
end

