-- ==== Sys2Proof/Laws/Ops.lean ====
section
/-! SUPPORT. One specification lemma for each shared operation, which proofs cite instead of unfolding it. -/

namespace Sys2Proof.Machine

/-! ## Bits and bytes of BUF -/

theorem getLsbD_setBit (x : Byte) (b : Nat) (v : Level) (j : Nat) (hb : b < 8) :
    (setBit x b v).getLsbD j = if j = b then v else x.getLsbD j := by
  have hone : ∀ k, (1#8 <<< b).getLsbD k = decide (k = b) := by
    intro k
    rw [BitVec.getLsbD_shiftLeft]
    by_cases h : k = b
    · subst h; simp [hb]
    · by_cases hk : k < b
      · simp [h, hk]
      · have : (1#8).getLsbD (k - b) = false := by
          have : k - b ≠ 0 := by omega
          simp [BitVec.getLsbD_one, this]
        simp [h, this]
  by_cases hj : j < 8
  · unfold setBit
    cases v <;> by_cases h : j = b <;>
      simp only [Bool.false_eq_true, if_true, if_false, BitVec.getLsbD_or, BitVec.getLsbD_and, BitVec.getLsbD_not,
        hone, h, hj] <;> simp
  · have h1 : ∀ y : Byte, y.getLsbD j = false := fun y => BitVec.getLsbD_of_ge y j (by omega)
    have : j ≠ b := by omega
    simp [h1, this]

@[simp] theorem length_writeByte (buf : List Byte) (i : Nat) (v : Byte) :
    (writeByte buf i v).length = buf.length := by simp [writeByte]

@[simp] theorem length_writeBit (buf : List Byte) (i b : Nat) (v : Level) :
    (writeBit buf i b v).length = buf.length := by simp [writeBit]

@[simp] theorem length_writePin (buf : List Byte) (p : Int) (v : Level) :
    (writePin buf p v).length = buf.length := by simp [writePin]

@[simp] theorem length_fill (cfg : ChannelConfig) (v : Byte) : (fill cfg v).length = cfg.length := by
  simp [fill]

theorem readByte_writeByte (buf : List Byte) (i j : Nat) (v : Byte) (hi : i < buf.length) :
    readByte (writeByte buf i v) j = if j = i then v else readByte buf j := by
  by_cases h : j = i
  · subst h; simp [readByte, writeByte, hi]
  · have h' : ¬ i = j := fun e => h e.symm
    simp [readByte, writeByte, h, h']

/-- A bit write changes the named bit and no other (R58). -/
theorem readBit_writeBit (buf : List Byte) (i b j c : Nat) (v : Level) (hi : i < buf.length) (hb : b < 8) :
    readBit (writeBit buf i b v) j c = if j = i ∧ c = b then v else readBit buf j c := by
  unfold readBit writeBit
  rw [readByte_writeByte _ _ _ _ hi]
  by_cases h : j = i
  · subst h; simp [getLsbD_setBit _ _ _ _ hb]
  · simp [h]

theorem readByte_fill (cfg : ChannelConfig) (v : Byte) (i : Nat) (hi : i < cfg.length) :
    readByte (fill cfg v) i = v := by
  simp [readByte, fill, hi]

theorem bitOf_lt (p : Int) : bitOf p < 8 := by unfold bitOf; omega

/-- The pin index is the byte index and the bit index (R51). -/
theorem byteOf_bitOf (p : Int) (hp : 0 ≤ p) : 8 * (byteOf p : Int) + (bitOf p : Int) = p := by
  unfold byteOf bitOf; omega

theorem validPin_iff (cfg : ChannelConfig) (p : Int) :
    validPin cfg p = true ↔ 0 ≤ p ∧ p < 8 * (cfg.length : Int) := by simp [validPin]

theorem byteOf_lt (cfg : ChannelConfig) (p : Int) (h : validPin cfg p = true) : byteOf p < cfg.length := by
  rw [validPin_iff] at h
  unfold byteOf; omega

/-- Writing a pin changes that pin and no other (R133). -/
theorem readPin_writePin (buf : List Byte) (p q : Int) (v : Level) (hp : 0 ≤ p) (hq : 0 ≤ q)
    (hb : byteOf p < buf.length) :
    readPin (writePin buf p v) q = if q = p then v else readPin buf q := by
  unfold readPin writePin
  rw [readBit_writeBit _ _ _ _ _ _ hb (bitOf_lt p)]
  have h1 := byteOf_bitOf p hp
  have h2 := byteOf_bitOf q hq
  by_cases h : q = p
  · simp [h]
  · have : ¬ (byteOf q = byteOf p ∧ bitOf q = bitOf p) := by
      rintro ⟨e1, e2⟩
      rw [e1, e2] at h2
      exact h (by omega)
    simp [h, this]

/-! ## Ending a command -/

/-- The phase check ends with NotConstructed or goes on to the command (R187, R189). -/
theorem whenReady_cases (s : State) (body : ChannelConfig → List Byte → Result) :
    (s.phase = .unconstructed ∧ whenReady s body = .next (raise .notConstructed s)) ∨
      ∃ cfg buf, s.phase = .ready cfg buf ∧ whenReady s body = body cfg buf := by
  unfold whenReady
  cases h : s.phase with
  | unconstructed => exact .inl ⟨rfl, rfl⟩
  | ready cfg buf => exact .inr ⟨cfg, buf, rfl, rfl⟩

theorem whenReady_ready {s : State} {cfg : ChannelConfig} {buf : List Byte} (h : s.phase = .ready cfg buf)
    (body : ChannelConfig → List Byte → Result) : whenReady s body = body cfg buf := by
  simp [whenReady, h]

theorem whenReady_unconstructed {s : State} (h : s.phase = .unconstructed)
    (body : ChannelConfig → List Byte → Result) : whenReady s body = .next (raise .notConstructed s) := by
  simp [whenReady, h, fail]

/-- The range check ends with RangeError or goes on to the command (R184). -/
theorem whenValidPin_cases (cfg : ChannelConfig) (p : Int) (s : State) (body : Result) :
    (validPin cfg p = false ∧ whenValidPin cfg p s body = .next (raise .range s)) ∨
      (validPin cfg p = true ∧ whenValidPin cfg p s body = body) := by
  unfold whenValidPin
  cases h : validPin cfg p
  · exact .inl ⟨rfl, rfl⟩
  · exact .inr ⟨rfl, rfl⟩

/-- A fill command past its phase check (R140 to R143). -/
theorem fillAll_ready {s : State} {cfg : ChannelConfig} {buf : List Byte} (h : s.phase = .ready cfg buf)
    (v : Byte) (transmits : Bool) :
    fillAll v transmits s =
      .next (respondOk [] (if transmits then storeAndTransmit cfg (fill cfg v) s else setBuf cfg (fill cfg v) s)) := by
  cases transmits <;> simp [fillAll, whenReady_ready h, done]

/-! ## Line events -/

/-- Emitting two lists is emitting one after the other (R10). -/
theorem emitAll_append (cfg : ChannelConfig) (es fs : List LineEvent) (s : State) :
    emitAll cfg (es ++ fs) s = emitAll cfg fs (emitAll cfg es s) := by
  simp [emitAll]

@[simp] theorem length_bitsMsbFirst (x : Byte) : (bitsMsbFirst x).length = 8 := rfl

@[simp] theorem length_shiftOutByte (cfg : ChannelConfig) (x : Byte) : (shiftOutByte cfg x).length = 24 := rfl

@[simp] theorem length_setupEvents (cfg : ChannelConfig) : (setupEvents cfg).length = 6 := rfl

@[simp] theorem length_latchPulse (cfg : ChannelConfig) : (latchPulse cfg).length = 2 := rfl

theorem length_flatMap_const {α β : Type} (f : α → List β) (k : Nat) (h : ∀ a, (f a).length = k)
    (l : List α) : (l.flatMap f).length = k * l.length := by
  induction l with
  | nil => simp
  | cons a l ih => simp [ih, h, Nat.mul_add, Nat.add_comm]

theorem length_shiftPhase (cfg : ChannelConfig) (buf : List Byte) :
    (shiftPhase cfg buf).length = 24 * buf.length := by
  unfold shiftPhase
  rw [length_flatMap_const _ 24 (fun x => length_shiftOutByte cfg x)]
  simp

/-- A transmission's only fixed cost (R155, R214). -/
theorem length_transmitEvents (cfg : ChannelConfig) (buf : List Byte) :
    (transmitEvents cfg buf).length = 24 * buf.length + 2 := by
  simp [transmitEvents, length_shiftPhase]

/-! ## The port -/

/-- All `fetch` can answer: nothing, a reset, or a transaction, taken from the head of the port (R80, R90). -/
theorem fetch_cases (s : State) :
    (s.port = [] ∧ fetch s = .idle) ∨
    (∃ rest, s.port = .reset :: rest ∧ fetch s = .reset { s with port := rest }) ∨
    (∃ w p rest i, s.port = .transaction w p :: rest ∧ decodeTransaction w p = .command i ∧
      fetch s = .command i { s with port := rest }) ∨
    (∃ w p rest c, s.port = .transaction w p :: rest ∧ decodeTransaction w p = .illegal c ∧
      fetch s = .illegal c { s with port := rest }) ∨
    (∃ w p rest, s.port = .transaction w p :: rest ∧ decodeTransaction w p = .misframed ∧
      fetch s = .misframed) := by
  unfold fetch
  rcases h : s.port with _ | ⟨_ | _, rest⟩
  · exact .inl ⟨rfl, rfl⟩
  · rename_i w p
    right; right
    cases hd : decodeTransaction w p with
    | command i => exact .inl ⟨w, p, rest, i, rfl, hd, by simp [hd]⟩
    | illegal c => exact .inr (.inl ⟨w, p, rest, c, rfl, hd, by simp [hd]⟩)
    | misframed => exact .inr (.inr ⟨w, p, rest, rfl, hd, by simp [hd]⟩)
  · exact .inr (.inl ⟨rest, rfl, rfl⟩)

end Sys2Proof.Machine
end

