-- ==== Sys2Proof/Laws/Lines.lean ====
section
/-! SUPPORT. What the line events of a set-up and of a transmission leave on LINES (10_state.md R28, 44_transmit.md
R156, R157), for three distinct pin identifiers. -/

namespace Sys2Proof.Machine

section

variable {cfg : ChannelConfig}

/-- One clocked bit: DATA holds the bit, CLOCK is back to low, LATCH is untouched (R154). -/
theorem lines_clockBit (h : cfg.Legal) (l : Lines) (bit : Level) :
    (clockBit cfg bit).foldl (Lines.apply cfg) l =
      { data := { l.data with level := .driven bit }
        clock := { l.clock with level := .driven false }
        latch := l.latch } := by
  obtain ⟨-, -, h1, h2, h3⟩ := h
  simp [clockBit, Lines.apply, Line.apply, ChannelConfig.pin, h1, h3, h2, h1.symm]

/-- A list of clocked bits: DATA holds the last of them. -/
theorem lines_clockBits (h : cfg.Legal) (l : Lines) (bits : List Level) (b : Level) :
    ((bits ++ [b]).flatMap (clockBit cfg)).foldl (Lines.apply cfg) l =
      { data := { l.data with level := .driven b }
        clock := { l.clock with level := .driven false }
        latch := l.latch } := by
  induction bits generalizing l with
  | nil => simpa using lines_clockBit h l b
  | cons x bits ih =>
    simp only [List.cons_append, List.flatMap_cons, List.foldl_append]
    rw [lines_clockBit h, ih]

/-- The shift phase sends the bits of the stream, one clocked bit each (R54, R155). -/
theorem shiftPhase_eq_stream (cfg : ChannelConfig) (buf : List Byte) :
    shiftPhase cfg buf = (stream buf).flatMap (clockBit cfg) := by
  simp only [shiftPhase, stream, List.flatMap_assoc]
  rfl

/-- The stream of a register file that is not empty ends with bit 0 of BUF[0] (R54). -/
theorem stream_eq_append (b : Byte) (buf : List Byte) :
    ∃ bits, stream (b :: buf) = bits ++ [b.getLsbD 0] := by
  refine ⟨stream buf ++ [b.getLsbD 7, b.getLsbD 6, b.getLsbD 5, b.getLsbD 4, b.getLsbD 3, b.getLsbD 2, b.getLsbD 1],
    ?_⟩
  simp [stream, bitsMsbFirst]

theorem stream_cons (b : Byte) (buf : List Byte) : stream (b :: buf) = stream buf ++ bitsMsbFirst b := by
  simp [stream]

theorem length_stream (buf : List Byte) : (stream buf).length = 8 * buf.length := by
  unfold stream
  rw [length_flatMap_const _ 8 (fun x => length_bitsMsbFirst x)]
  simp

/-- The stream determines the register file: SENT is known from its bits (R161). -/
theorem stream_injective {a b : List Byte} (h : stream a = stream b) : a = b := by
  induction a generalizing b with
  | nil =>
    have := congrArg List.length h
    rw [length_stream, length_stream] at this
    cases b with
    | nil => rfl
    | cons y b => simp at this
  | cons x a ih =>
    cases b with
    | nil =>
      have := congrArg List.length h
      rw [length_stream, length_stream] at this
      simp at this
    | cons y b =>
      rw [stream_cons, stream_cons] at h
      obtain ⟨htail, hbits⟩ := List.append_inj' h rfl
      simp only [bitsMsbFirst, List.cons.injEq, and_true] at hbits
      rw [ih htail]
      congr 1
      apply BitVec.eq_of_getLsbD_eq
      intro i hi
      interval_cases i <;> simp only [hbits]

/-- Events that never write LATCH leave its level alone. -/
theorem latch_level_foldl {cfg : ChannelConfig} {es : List LineEvent} (h : ∀ e ∈ es, ∀ b, e ≠ .write cfg.latch b)
    (l : Lines) : (es.foldl (Lines.apply cfg) l).latch.level = l.latch.level := by
  induction es generalizing l with
  | nil => rfl
  | cons e es ih =>
    rw [List.foldl_cons, ih (fun x hx => h x (by simp [hx]))]
    cases e with
    | pinMode id => simp only [Lines.apply, Line.apply]; split <;> rfl
    | write id b =>
      have hid : id ≠ cfg.latch := fun hid => h (.write id b) (by simp) b (by rw [hid])
      simp [Lines.apply, Line.apply, ChannelConfig.pin, hid]

/-- No event of a shift phase writes LATCH (R153, R156). -/
theorem shiftPhase_ne_latch (h : cfg.Legal) (buf : List Byte) :
    ∀ e ∈ shiftPhase cfg buf, ∀ b, e ≠ .write cfg.latch b := by
  intro e he b
  rw [shiftPhase_eq_stream] at he
  simp only [List.mem_flatMap, clockBit] at he
  obtain ⟨x, -, he⟩ := he
  obtain ⟨-, -, h1, h2, h3⟩ := h
  simp at he
  rcases he with rfl | rfl | rfl <;> simp [h2, h3]

/-- All but the last two events of a transmission are its shift phase (R155, R156). -/
theorem take_transmitEvents (cfg : ChannelConfig) (buf : List Byte) (k : Nat)
    (hk : k + 2 ≤ (transmitEvents cfg buf).length) :
    (transmitEvents cfg buf).take k = (shiftPhase cfg buf).take k := by
  simp only [transmitEvents, List.length_append, length_latchPulse] at *
  rw [List.take_append_of_le_length (by omega)]

/-- The latch pulse leaves LATCH low and the other two lines alone (R151). -/
theorem lines_latchPulse (h : cfg.Legal) (l : Lines) :
    (latchPulse cfg).foldl (Lines.apply cfg) l = { l with latch := { l.latch with level := .driven false } } := by
  obtain ⟨-, -, h1, h2, h3⟩ := h
  simp [latchPulse, Lines.apply, Line.apply, ChannelConfig.pin, h2.symm, h3.symm]

/-- What a transmission leaves on the lines (R157): CLOCK and LATCH low, DATA the last bit sent. -/
theorem lines_transmitEvents (h : cfg.Legal) (l : Lines) (b : Byte) (buf : List Byte) :
    (transmitEvents cfg (b :: buf)).foldl (Lines.apply cfg) l =
      { data := { l.data with level := .driven (b.getLsbD 0) }
        clock := { l.clock with level := .driven false }
        latch := { l.latch with level := .driven false } } := by
  obtain ⟨bits, hb⟩ := stream_eq_append b buf
  rw [transmitEvents, List.foldl_append, shiftPhase_eq_stream, hb, lines_clockBits h, lines_latchPulse h]

/-- What the set-up leaves on the lines: all three outputs, all three low (R111). -/
theorem lines_setupEvents (h : cfg.Legal) (l : Lines) :
    (setupEvents cfg).foldl (Lines.apply cfg) l =
      { data := { mode := .output, level := .driven false }
        clock := { mode := .output, level := .driven false }
        latch := { mode := .output, level := .driven false } } := by
  obtain ⟨-, -, h1, h2, h3⟩ := h
  simp [setupEvents, Lines.apply, Line.apply, ChannelConfig.pin, h1, h3, h2, h1.symm, h2.symm, h3.symm]

end

/-! ## The ghost function SENT -/

section

variable {cfg : ChannelConfig}

/-- One clocked bit is one sampled bit (R153, R161). -/
theorem read_clockBit (h : cfg.Legal) (m : Sampler) (bit : Level) :
    (clockBit cfg bit).foldl (Sampler.read cfg) m =
      { m with level := some bit, shifted := m.shifted ++ [bit] } := by
  obtain ⟨-, -, h1, h2, h3⟩ := h
  simp [clockBit, Sampler.read, h1.symm, h3]

/-- Clocked bits are the sampled bits, in order. -/
theorem read_clockBits (h : cfg.Legal) (m : Sampler) (bits : List Level) :
    ((bits.flatMap (clockBit cfg)).foldl (Sampler.read cfg) m).shifted = m.shifted ++ bits ∧
    ((bits.flatMap (clockBit cfg)).foldl (Sampler.read cfg) m).latched = m.latched := by
  induction bits generalizing m with
  | nil => simp
  | cons x bits ih =>
    simp only [List.flatMap_cons, List.foldl_append]
    rw [read_clockBit h]
    simpa using ih { level := some x, shifted := m.shifted ++ [x], latched := m.latched }

/-- A transmission commits the stream of the register file it sends, after the bits still in the shift stages, and
leaves none there (R160, R161). -/
theorem read_transmitEvents (h : cfg.Legal) (m : Sampler) (buf : List Byte) :
    ((transmitEvents cfg buf).foldl (Sampler.read cfg) m).shifted = [] ∧
    ((transmitEvents cfg buf).foldl (Sampler.read cfg) m).latched = some (m.shifted ++ stream buf) := by
  obtain ⟨e1, e2⟩ := read_clockBits h m (stream buf)
  obtain ⟨-, -, h1, h2, h3⟩ := h
  rw [transmitEvents, List.foldl_append, shiftPhase_eq_stream]
  simp [latchPulse, Sampler.read, h2.symm, h3.symm, e1]

/-- The set-up commits nothing and samples nothing (R111). -/
theorem read_setupEvents (h : cfg.Legal) (m : Sampler) :
    ((setupEvents cfg).foldl (Sampler.read cfg) m).shifted = m.shifted ∧
    ((setupEvents cfg).foldl (Sampler.read cfg) m).latched = m.latched := by
  obtain ⟨-, -, h1, h2, h3⟩ := h
  simp [setupEvents, Sampler.read, h1.symm, h2.symm]

end

end Sys2Proof.Machine
end

