-- ==== Sys2Proof/Laws/Chips.lean ====
section
/-! SUPPORT. What the downstream chips do with the line events of a transmission (44_transmit.md R162 to R164). -/

namespace Sys2Proof.Machine

/-! ## Shifting bytes through the chain -/

/-- Shift the bits of a list into the chain, first bit first. -/
def shiftBits (bits : List Level) (chips : List Chip) : List Chip :=
  bits.foldl (fun cs b => shiftChips b cs) chips

theorem shiftBits_append (a b : List Level) (chips : List Chip) :
    shiftBits (a ++ b) chips = shiftBits b (shiftBits a chips) := by
  simp [shiftBits]

/-- Eight bits replace the stage of the first chip, whose old byte moves on to the next chip (R162). -/
theorem shiftBits_byte_cons (x : Byte) (c : Chip) (rest : List Chip) :
    shiftBits (bitsMsbFirst x) (c :: rest) =
      { c with stage := x } :: shiftBits (bitsMsbFirst c.stage) rest := by
  have hstage : BitVec.concat ((BitVec.concat ((BitVec.concat ((BitVec.concat ((BitVec.concat ((BitVec.concat
      ((BitVec.concat ((BitVec.concat (c.stage.setWidth 7) (x.getLsbD 7)).setWidth 7) (x.getLsbD 6)).setWidth 7)
      (x.getLsbD 5)).setWidth 7) (x.getLsbD 4)).setWidth 7) (x.getLsbD 3)).setWidth 7) (x.getLsbD 2)).setWidth 7)
      (x.getLsbD 1)).setWidth 7) (x.getLsbD 0) = x := by
    apply BitVec.eq_of_getLsbD_eq
    intro i hi
    interval_cases i <;> simp
  simp only [shiftBits, bitsMsbFirst, List.foldl_cons, List.foldl_nil, shiftChips]
  rw [hstage]
  simp

/-- Eight bits push every byte one chip farther; the last chip's byte leaves the chain. -/
theorem stages_shiftBits_byte (x : Byte) (chips : List Chip) :
    stages (shiftBits (bitsMsbFirst x) chips) = (x :: stages chips).take chips.length := by
  induction chips generalizing x with
  | nil => rfl
  | cons c rest ih =>
    rw [shiftBits_byte_cons]
    have := ih c.stage
    simp only [stages, List.map_cons, List.length_cons, List.take_succ_cons] at this ⊢
    rw [this]

@[simp] theorem length_shiftChips (b : Level) (chips : List Chip) :
    (shiftChips b chips).length = chips.length := by
  induction chips generalizing b with
  | nil => rfl
  | cons c rest ih => simp [shiftChips, ih]

@[simp] theorem outputs_shiftChips (b : Level) (chips : List Chip) :
    outputs (shiftChips b chips) = outputs chips := by
  induction chips generalizing b with
  | nil => rfl
  | cons c rest ih =>
    have := ih (c.stage.getLsbD 7)
    simp only [outputs, shiftChips, List.map_cons] at this ⊢
    rw [this]

@[simp] theorem length_shiftBits (bits : List Level) (chips : List Chip) :
    (shiftBits bits chips).length = chips.length := by
  induction bits generalizing chips with
  | nil => rfl
  | cons b bits ih => simpa [shiftBits] using ih (shiftChips b chips)

/-- Shifting shows on no output (R163). -/
@[simp] theorem outputs_shiftBits (bits : List Level) (chips : List Chip) :
    outputs (shiftBits bits chips) = outputs chips := by
  induction bits generalizing chips with
  | nil => rfl
  | cons b bits ih => simpa [shiftBits] using ih (shiftChips b chips)

/-- A whole register file pushes every old byte `buf.length` chips farther (R163, R164). -/
theorem stages_shiftBits_stream (buf : List Byte) (chips : List Chip) :
    stages (shiftBits (stream buf) chips) = (buf ++ stages chips).take chips.length := by
  induction buf generalizing chips with
  | nil => simp [stream, shiftBits, stages]
  | cons b buf ih =>
    rw [stream_cons, shiftBits_append, stages_shiftBits_byte, ih]
    simp only [length_shiftBits, List.cons_append]
    cases chips.length with
    | zero => rfl
    | succ k => simp [List.take_take]

/-! ## Watching the events -/

section

variable {cfg : ChannelConfig} (init : LineRole → Level)

/-- The lines an observer sees are the block's own (R162). -/
theorem watchAll_lines (o : Observer) (es : List LineEvent) :
    (o.watchAll init cfg es).lines = es.foldl (Lines.apply cfg) o.lines := by
  induction es generalizing o with
  | nil => rfl
  | cons e es ih => simpa [Observer.watchAll, Observer.watch] using ih (o.watch init cfg e)

theorem watchAll_append (o : Observer) (es fs : List LineEvent) :
    o.watchAll init cfg (es ++ fs) = (o.watchAll init cfg es).watchAll init cfg fs := by
  simp [Observer.watchAll]

/-- One clocked bit shifts the chain once (R162). -/
theorem chips_clockBit (h : cfg.Legal) (o : Observer) (hc : o.lines.clock.level = .driven false) (bit : Level) :
    (o.watchAll init cfg (clockBit cfg bit)).chips = shiftChips bit o.chips := by
  obtain ⟨-, -, h1, h2, h3⟩ := h
  cases bit <;>
  simp [clockBit, Observer.watchAll, Observer.watch, chipsAfter, Lines.apply, Line.apply, ChannelConfig.pin,
    Lines.levelOf, Lines.line, h1, h1.symm, h2, h3, hc]

/-- Clocked bits shift the chain by their values, in order. -/
theorem chips_clockBits (h : cfg.Legal) (o : Observer) (hc : o.lines.clock.level = .driven false)
    (bits : List Level) :
    (o.watchAll init cfg (bits.flatMap (clockBit cfg))).chips = shiftBits bits o.chips := by
  induction bits generalizing o with
  | nil => rfl
  | cons b bits ih =>
    rw [List.flatMap_cons, watchAll_append, ih _ (by rw [watchAll_lines, lines_clockBit h]),
      chips_clockBit init h o hc]
    rfl

/-- A latch pulse copies every stage to its output (R162). -/
theorem chips_latchPulse (h : cfg.Legal) (o : Observer) (hl : o.lines.latch.level = .driven false) :
    (o.watchAll init cfg (latchPulse cfg)).chips = latchChips o.chips := by
  obtain ⟨-, -, h1, h2, h3⟩ := h
  simp [latchPulse, Observer.watchAll, Observer.watch, chipsAfter, Lines.levelOf, Lines.line, h3.symm, hl]

/-- A transmission shifts the stream in and latches it (R163). -/
theorem chips_transmitEvents (h : cfg.Legal) (o : Observer) (hc : o.lines.clock.level = .driven false)
    (hl : o.lines.latch.level = .driven false) (buf : List Byte) :
    (o.watchAll init cfg (transmitEvents cfg buf)).chips = latchChips (shiftBits (stream buf) o.chips) := by
  have hlines : ∀ bits : List Level,
      ((bits.flatMap (clockBit cfg)).foldl (Lines.apply cfg) o.lines).latch = o.lines.latch := by
    intro bits
    rcases List.eq_nil_or_concat bits with rfl | ⟨bs, b, rfl⟩
    · rfl
    · rw [List.concat_eq_append, lines_clockBits h]
  rw [transmitEvents, watchAll_append, shiftPhase_eq_stream,
    chips_latchPulse init h _ (by rw [watchAll_lines, hlines, hl]), chips_clockBits init h o hc]

/-- The set-up only configures and lowers the lines, so the chips do not act on it (R111). -/
theorem chips_setupEvents (o : Observer) : (o.watchAll init cfg (setupEvents cfg)).chips = o.chips := by
  simp [setupEvents, Observer.watchAll, Observer.watch, chipsAfter]

/-- Watching events neither adds a chip nor takes one away. -/
theorem length_watchAll (o : Observer) (es : List LineEvent) :
    (o.watchAll init cfg es).chips.length = o.chips.length := by
  induction es generalizing o with
  | nil => rfl
  | cons e es ih =>
    refine (ih (o.watch init cfg e)).trans ?_
    simp only [Observer.watch, chipsAfter]
    cases e with
    | pinMode => rfl
    | write id b =>
      cases b with
      | false => rfl
      | true => simp only; split_ifs <;> simp [latchChips]

/-- Events that never write LATCH change no output (R61, R163). -/
theorem outputs_watchAll {es : List LineEvent} (h : ∀ e ∈ es, ∀ b, e ≠ .write cfg.latch b) (o : Observer) :
    outputs (o.watchAll init cfg es).chips = outputs o.chips := by
  induction es generalizing o with
  | nil => rfl
  | cons e es ih =>
    refine (ih (fun x hx => h x (by simp [hx])) (o.watch init cfg e)).trans ?_
    simp only [Observer.watch, chipsAfter]
    cases e with
    | pinMode => rfl
    | write id b =>
      have hid : id ≠ cfg.latch := fun hid => h (.write id b) (by simp) b (by rw [hid])
      cases b with
      | false => rfl
      | true => simp only [hid, false_and, if_false]; split_ifs <;> simp

@[simp] theorem stages_latchChips (chips : List Chip) : stages (latchChips chips) = stages chips := by
  simp [stages, latchChips, Function.comp_def]

@[simp] theorem outputs_latchChips (chips : List Chip) : outputs (latchChips chips) = stages chips := by
  simp [stages, outputs, latchChips, Function.comp_def]

end

end Sys2Proof.Machine
end

