-- ==== Sys2Proof/Laws/Decode.lean ====
section
/-! SUPPORT. What the opcode table selects, and what the byte transport does to a transaction (30_encoding.md R81, R88,
R90). -/

namespace Sys2Proof

/-- Every row of the table fixes the opcode field (R82, R88). -/
theorem opcodeField_of_selects {r : OpcodeRow} (hr : r ∈ opcodeRows) {w : Word} (h : r.selects w = true) :
    opcodeField w = opcodeField r.pattern := by
  have h' : w &&& r.mask = r.pattern := by simpa [OpcodeRow.selects] using h
  have hm : ∀ q ∈ opcodeRows, q.mask.extractLsb' 28 4 = BitVec.allOnes 4 := by decide
  rw [← h', opcodeField, opcodeField, BitVec.extractLsb'_and, hm r hr, BitVec.and_allOnes]

/-- At most one row selects a word: two rows have different opcodes (R88). -/
theorem selects_unique {r q : OpcodeRow} (hr : r ∈ opcodeRows) (hq : q ∈ opcodeRows) {w : Word}
    (h : r.selects w = true) (h' : q.selects w = true) : r = q := by
  have e : opcodeField r.pattern = opcodeField q.pattern :=
    (opcodeField_of_selects hr h).symm.trans (opcodeField_of_selects hq h')
  have : ∀ a ∈ opcodeRows, ∀ b ∈ opcodeRows, opcodeField a.pattern = opcodeField b.pattern → a = b := by decide
  exact this r hr q hq e

/-- A row that selects a word is the row the decoder finds (R91). -/
theorem selectCommand_of_selects {r : OpcodeRow} (hr : r ∈ opcodeRows) {w : Word} (h : r.selects w = true) :
    selectCommand w = .ok r.opcode := by
  have hres : reservedOpcode (opcodeField w) = false := by
    rw [opcodeField_of_selects hr h]
    have : ∀ q ∈ opcodeRows, reservedOpcode (opcodeField q.pattern) = false := by decide
    exact this r hr
  have hf : opcodeRows.find? (fun q => q.selects w) = some r := by
    cases e : opcodeRows.find? (fun q => q.selects w) with
    | none => exact absurd h (by simpa using List.find?_eq_none.1 e r hr)
    | some q => rw [selects_unique hr (List.mem_of_find?_eq_some e) h (List.find?_some (p := fun q : OpcodeRow => q.selects w) e)]
  simp [selectCommand, hres, hf]

/-- The decoder finds a row of the table, and that row selects the word (R91). -/
theorem selects_of_selectCommand {w : Word} {op : Opcode} (h : selectCommand w = .ok op) :
    ∃ r ∈ opcodeRows, r.opcode = op ∧ r.selects w = true := by
  unfold selectCommand at h
  split at h
  · cases h
  · split at h
    · rename_i r e
      cases h
      exact ⟨r, List.mem_of_find?_eq_some e, rfl, List.find?_some (p := fun q : OpcodeRow => q.selects w) e⟩
    · cases h

/-- The four bytes of a header word are the word again (R81). -/
theorem headerBytes_append (w : Word) :
    (w.extractLsb' 24 8 ++ w.extractLsb' 16 8 ++ w.extractLsb' 8 8 ++ w.extractLsb' 0 8 : BitVec 32) = w := by
  apply BitVec.eq_of_getLsbD_eq
  intro i hi
  interval_cases i <;> simp only [BitVec.getLsbD_append, BitVec.getLsbD_extractLsb'] <;> simp

/-- A transaction on the byte transport is received whole, and the bytes after it are left (R81, R90). -/
theorem receive_headerBytes (w : Word) (payload rest : List Byte) (h : payload.length = payloadLen w) :
    receive (headerBytes w ++ payload ++ rest) = some (w, payload, rest) := by
  simp only [headerBytes, List.cons_append, List.nil_append, receive, headerBytes_append]
  simp [← h]

/-- What `receive` answers is a transaction and the rest of the stream (R90). -/
theorem receive_spec {bytes : List Byte} {w : Word} {payload rest : List Byte}
    (h : receive bytes = some (w, payload, rest)) :
    payload.length = payloadLen w ∧ bytes = headerBytes w ++ payload ++ rest := by
  unfold receive at h
  split at h
  · rename_i b3 b2 b1 b0 tail
    simp only at h
    split at h
    · rename_i hle
      simp only [Option.some.injEq, Prod.mk.injEq] at h
      obtain ⟨rfl, rfl, rfl⟩ := h
      refine ⟨by simpa using hle, ?_⟩
      have hb : headerBytes (b3 ++ b2 ++ b1 ++ b0 : BitVec 32) = [b3, b2, b1, b0] := by
        simp only [headerBytes, List.cons.injEq, and_true]
        refine ⟨?_, ?_, ?_, ?_⟩ <;>
        · apply BitVec.eq_of_getLsbD_eq
          intro i hi
          interval_cases i <;> simp only [BitVec.getLsbD_append, BitVec.getLsbD_extractLsb'] <;> simp
      rw [hb]
      simp
    · cases h
  · cases h

/-- A transaction decodes to a command only where its payload has the length R90 gives and a row selects it. -/
theorem decodeTransaction_command {w : Word} {payload : List Byte} {i : Instr}
    (h : decodeTransaction w payload = .command i) :
    payload.length = payloadLen w ∧ ∃ r ∈ opcodeRows, r.selects w = true ∧ assemble r.opcode w payload = some i := by
  unfold decodeTransaction at h
  split at h
  · rename_i hl
    refine ⟨hl, ?_⟩
    split at h
    · cases h
    · rename_i op hop
      obtain ⟨r, hr, rfl, hs⟩ := selects_of_selectCommand hop
      split at h
      · rename_i j hj
        cases h
        exact ⟨r, hr, hs, hj⟩
      · cases h
  · cases h

/-- A transaction of the right length whose header a row selects decodes to that row's command (R88, R91). -/
theorem decodeTransaction_of_selects {r : OpcodeRow} (hr : r ∈ opcodeRows) {w : Word} (h : r.selects w = true)
    {payload : List Byte} (hl : payload.length = payloadLen w) {i : Instr}
    (hi : assemble r.opcode w payload = some i) : decodeTransaction w payload = .command i := by
  simp [decodeTransaction, hl, selectCommand_of_selects hr h, hi]

/-! ## Fields of an encoded header word -/

/-- The low half of a word built from a pattern with a clear low half is the field put there (R84, R85). -/
theorem lowHalf_field (k : Word) (x : BitVec 16) (hk : k.extractLsb' 0 16 = 0#16) :
    (k ||| lowHalf x).extractLsb' 0 16 = x := by
  rw [BitVec.extractLsb'_or, hk]
  apply BitVec.eq_of_getLsbD_eq
  intro i hi
  simp only [BitVec.getLsbD_or, BitVec.getLsbD_extractLsb', lowHalf, BitVec.getLsbD_setWidth]
  simp [hi, show i < 32 by omega]

/-- A mask distributes over the fields of a word. -/
theorem or_and_mask (x y m : Word) : (x ||| y) &&& m = x &&& m ||| y &&& m := by
  apply BitVec.eq_of_getLsbD_eq
  intro i _
  simp only [BitVec.getLsbD_or, BitVec.getLsbD_and, Bool.and_or_distrib_right]

/-- The low half is clear under a mask of the high half (R88). -/
theorem lowHalf_and_mask (x : BitVec 16) (m : Word) (hm : m.extractLsb' 0 16 = 0#16) : lowHalf x &&& m = 0#32 := by
  apply BitVec.eq_of_getLsbD_eq
  intro i hi
  have h : i < 16 → m.getLsbD i = false := by
    intro h16
    have := congrArg (fun y => y.getLsbD i) hm
    simpa [h16] using this
  by_cases h16 : i < 16
  · simp only [BitVec.getLsbD_and, h h16]; simp
  · simp only [BitVec.getLsbD_and, lowHalf, BitVec.getLsbD_setWidth, BitVec.getLsbD_of_ge x i (by omega)]; simp

/-- The encoder's header word is selected by its own row, and its fields are the operands (R88, R93). -/
theorem encodeHeader_construct (n : BitVec 16) (d c l : PinId) :
    let w := encodeHeader (.construct n d c l)
    OpcodeRow.selects ⟨.construct, 0x10000000#32, 0xFFFF0000#32⟩ w = true ∧ lenField w = n := by
  refine ⟨?_, lowHalf_field _ _ (by decide)⟩
  simp [OpcodeRow.selects, encodeHeader, or_and_mask, lowHalf_and_mask]

theorem encodeHeader_setAll (values : List Byte) :
    let w := encodeHeader (.setAll values)
    OpcodeRow.selects ⟨.setAll, 0x20000000#32, 0xFFFF0000#32⟩ w = true ∧
      lenField w = BitVec.ofNat 16 values.length := by
  refine ⟨?_, lowHalf_field _ _ (by decide)⟩
  simp [OpcodeRow.selects, encodeHeader, or_and_mask, lowHalf_and_mask]

theorem encodeHeader_getPin (p : Int) :
    let w := encodeHeader (.getPin p)
    OpcodeRow.selects ⟨.getPin, 0x50000000#32, 0xFFFF0000#32⟩ w = true ∧
      w.extractLsb' 0 16 = BitVec.ofInt 16 p := by
  refine ⟨?_, lowHalf_field _ _ (by decide)⟩
  simp [OpcodeRow.selects, encodeHeader, or_and_mask, lowHalf_and_mask]

/-- The fields of a format PV word (R82, R83). -/
theorem pinValueWord (k : Word) (v : Level) (x : BitVec 16) (hlow : k.extractLsb' 0 17 = 0#17) :
    (k ||| valueBit v ||| lowHalf x) &&& 0xFFFE0000#32 = k &&& 0xFFFE0000#32 ∧
      (k ||| valueBit v ||| lowHalf x).getLsbD 16 = v ∧
      (k ||| valueBit v ||| lowHalf x).extractLsb' 0 16 = x := by
  have h16 : k.getLsbD 16 = false := by
    have := congrArg (fun y => y.getLsbD 16) hlow
    simpa using this
  have hk : (k ||| valueBit v).extractLsb' 0 16 = 0#16 := by
    apply BitVec.eq_of_getLsbD_eq
    intro i hi
    have := congrArg (fun y => y.getLsbD i) hlow
    have hki : k.getLsbD i = false := by simpa [show i < 17 by omega] using this
    have hv : (65536#32).getLsbD i = false := by interval_cases i <;> rfl
    cases v <;> simp [valueBit, hi, hki, hv, BitVec.getLsbD_or]
  refine ⟨?_, ?_, lowHalf_field _ _ hk⟩
  · rw [or_and_mask, lowHalf_and_mask _ _ (by decide), or_and_mask]
    cases v <;> simp [valueBit]
  · simp only [BitVec.getLsbD_or, h16]
    cases v <;> simp [valueBit, lowHalf]

/-! ## Words the table does not select -/

/-- The payload length of a word a row selects, by the row's opcode (R90). -/
theorem payloadLen_of_selects {r : OpcodeRow} (hr : r ∈ opcodeRows) {w : Word} (h : r.selects w = true) :
    payloadLen w =
      if opcodeField r.pattern = 0x1#4 then 3
      else if opcodeField r.pattern = 0x2#4 then (lenField w).toNat
      else 0 := by
  rw [payloadLen, opcodeField_of_selects hr h]

/-- A transaction of the length R90 gives is a command or illegal, whatever its word. -/
theorem decodeTransaction_ne_misframed {w : Word} {payload : List Byte} (hl : payload.length = payloadLen w) :
    decodeTransaction w payload ≠ .misframed := by
  intro hd
  unfold decodeTransaction at hd
  rw [if_pos hl] at hd
  split at hd
  · cases hd
  · rename_i op hop
    obtain ⟨r, hr, rfl, hs⟩ := selects_of_selectCommand hop
    rw [payloadLen_of_selects hr hs] at hl
    fin_cases hr <;> simp_all [assemble, opcodeField]
    match payload, hl with
    | [_, _, _], _ => simp at hd

/-- A word with a row's opcode that the row does not select has a reserved bit set (R89). -/
theorem decodeTransaction_reservedBit {q : OpcodeRow} (hq : q ∈ opcodeRows) {w : Word} {payload : List Byte}
    (hop : opcodeField w = opcodeField q.pattern) (hs : ¬ q.selects w = true) (hl : payload.length = payloadLen w) :
    decodeTransaction w payload = .illegal .reservedBit := by
  have hnone : opcodeRows.find? (fun r => r.selects w) = none := by
    rw [List.find?_eq_none]
    intro r hr h
    have hsame : ∀ a ∈ opcodeRows, ∀ b ∈ opcodeRows, opcodeField a.pattern = opcodeField b.pattern → a = b := by
      decide
    exact hs (hsame r hr q hq ((opcodeField_of_selects hr h).symm.trans hop) ▸ h)
  have hres : reservedOpcode (opcodeField w) = false := by
    have : ∀ r ∈ opcodeRows, reservedOpcode (opcodeField r.pattern) = false := by decide
    rw [hop, this q hq]
  simp [decodeTransaction, hl, selectCommand, hres, hnone]

/-- A row whose mask covers the bits from `k` up selects the words with its opcode and zeros from bit `k` to bit 27
(R82, R88). -/
theorem selects_iff_fields (w : Word) (k : Nat) (hk : k ≤ 28) (r : OpcodeRow) (hm : r.mask = BitVec.allOnes 32 <<< k)
    (hp : r.pattern = (r.pattern.extractLsb' 28 4).setWidth 32 <<< 28) :
    r.selects w = true ↔
      w.extractLsb' 28 4 = r.pattern.extractLsb' 28 4 ∧ w.extractLsb' k (28 - k) = 0#(28 - k) := by
  have hsel : r.selects w = true ↔ w &&& r.mask = r.pattern := by simp [OpcodeRow.selects]
  rw [hsel, hm]
  have hlow : ∀ i, i < 28 → r.pattern.getLsbD i = false := by
    intro i hi
    rw [hp, BitVec.getLsbD_shiftLeft]
    simp [hi]
  constructor
  · intro h
    constructor
    · apply BitVec.eq_of_getLsbD_eq
      intro i hi
      have := congrArg (fun y => y.getLsbD (28 + i)) h
      simp only [BitVec.getLsbD_and, BitVec.getLsbD_shiftLeft, BitVec.getLsbD_allOnes] at this
      simp only [BitVec.getLsbD_extractLsb']
      rw [← this]
      simp [show 28 + i < 32 by omega, show ¬ 28 + i < k by omega, show 28 + i - k < 32 by omega, hi]
    · apply BitVec.eq_of_getLsbD_eq
      intro i hi
      have := congrArg (fun y => y.getLsbD (k + i)) h
      simp only [BitVec.getLsbD_and, BitVec.getLsbD_shiftLeft, BitVec.getLsbD_allOnes] at this
      rw [hlow _ (by omega)] at this
      have hki : k + i < 32 := by omega
      simp [hki, show i < 32 by omega] at this
      simp only [BitVec.getLsbD_extractLsb']
      simp only [hi, decide_true, Bool.true_and, BitVec.getLsbD_zero]
      rw [BitVec.getLsbD_eq_getElem hki]
      exact this
  · rintro ⟨h1, h2⟩
    apply BitVec.eq_of_getLsbD_eq
    intro i hi
    simp only [BitVec.getLsbD_and, BitVec.getLsbD_shiftLeft, BitVec.getLsbD_allOnes]
    by_cases h28 : i < 28
    · rw [hlow i h28]
      by_cases hik : i < k
      · simp [hik]
      · have := congrArg (fun y => y.getLsbD (i - k)) h2
        simp only [BitVec.getLsbD_extractLsb', show k + (i - k) = i by omega] at this
        have e : w.getLsbD i = false := by simpa [show i - k < 28 - k by omega] using this
        rw [e]
        simp
    · have := congrArg (fun y => y.getLsbD (i - 28)) h1
      simp only [BitVec.getLsbD_extractLsb', show 28 + (i - 28) = i by omega] at this
      have e : w.getLsbD i = r.pattern.getLsbD i := by simpa [show i - 28 < 4 by omega] using this
      rw [e]
      simp [hi, show i - k < 32 by omega, show ¬ i < k by omega]

end Sys2Proof
end

