-- ==== Sys2Proof/Laws/Exec.lean ====
section
/-! SUPPORT. All that a command can do, and all that a step can do: the inversion lemmas that proofs about every command
go through. -/

namespace Sys2Proof.Machine

/-- UPDATEREGISTERS stores what BUF already holds (R150). -/
theorem transmit_eq_storeAndTransmit {s : State} {cfg : ChannelConfig} {buf : List Byte}
    (h : s.phase = .ready cfg buf) : transmit cfg buf s = storeAndTransmit cfg buf s := by
  have : setBuf cfg buf s = s := by simp [setBuf, ← h]
  rw [storeAndTransmit, this]

/-- The operands CONSTRUCT's checks let through make a legal configuration (R23, R110). -/
theorem legal_of_checks {n : BitVec 16} {d c l : PinId} (h1 : ¬ n.toNat < 1) (h2 : ¬ Config.nMax < n.toNat)
    (h3 : ¬ pinsCollide d c l = true) : ({ n := n, data := d, clock := c, latch := l } : ChannelConfig).Legal := by
  simp only [pinsCollide, Bool.or_eq_true, beq_iff_eq, not_or] at h3
  exact ⟨by simp only [ChannelConfig.length]; omega, by simp only [ChannelConfig.length]; omega, h3.1.1, h3.1.2, h3.2⟩

/-- What a command past its phase check does to a constructed block: it answers, it stores a register file of the same
size, or it stores one and transmits it. -/
def ReadyEffect (cfg : ChannelConfig) (buf : List Byte) (s t : State) : Prop :=
  (∃ data, t = respondOk data s) ∨
  (∃ buf', (buf.length = cfg.length → buf'.length = cfg.length) ∧ t = respondOk [] (setBuf cfg buf' s)) ∨
  (∃ buf', (buf.length = cfg.length → buf'.length = cfg.length) ∧ t = respondOk [] (storeAndTransmit cfg buf' s))

/-- All that a command can do. It always answers a next state: with an error, as a CONSTRUCT, or as a command of a
constructed block. -/
theorem exec_cases (i : Instr) (s : State) :
    ∃ t, exec i s = .next t ∧
      ((∃ e, t = raise e s) ∨
       (∃ n d c l, i = .construct n d c l ∧ s.phase = .unconstructed ∧
          ({ n := n, data := d, clock := c, latch := l } : ChannelConfig).Legal ∧
          t = respondOk [] (construct { n := n, data := d, clock := c, latch := l } s)) ∨
       (∃ cfg buf, s.phase = .ready cfg buf ∧ ReadyEffect cfg buf s t)) := by
  have ready : ∀ body : ChannelConfig → List Byte → Result,
      (∀ cfg buf, s.phase = .ready cfg buf →
        ∃ t, body cfg buf = .next t ∧ ((∃ e, t = raise e s) ∨ ReadyEffect cfg buf s t)) →
      ∃ t, whenReady s body = .next t ∧
        ((∃ e, t = raise e s) ∨ (∃ cfg buf, s.phase = .ready cfg buf ∧ ReadyEffect cfg buf s t)) := by
    intro body hbody
    rcases whenReady_cases s body with ⟨-, h⟩ | ⟨cfg, buf, hp, h⟩
    · exact ⟨_, h, .inl ⟨_, rfl⟩⟩
    · obtain ⟨t, ht, hc⟩ := hbody cfg buf hp
      refine ⟨t, h.trans ht, ?_⟩
      rcases hc with he | hr
      · exact .inl he
      · exact .inr ⟨cfg, buf, hp, hr⟩
  have lift : ∀ r : Result,
      (∃ t, r = .next t ∧
        ((∃ e, t = raise e s) ∨ (∃ cfg buf, s.phase = .ready cfg buf ∧ ReadyEffect cfg buf s t))) →
      ∃ t, r = .next t ∧
        ((∃ e, t = raise e s) ∨
         (∃ n d c l, i = .construct n d c l ∧ s.phase = .unconstructed ∧
            ({ n := n, data := d, clock := c, latch := l } : ChannelConfig).Legal ∧
            t = respondOk [] (construct { n := n, data := d, clock := c, latch := l } s)) ∨
         (∃ cfg buf, s.phase = .ready cfg buf ∧ ReadyEffect cfg buf s t)) := by
    rintro r ⟨t, ht, he | hr⟩
    · exact ⟨t, ht, .inl he⟩
    · exact ⟨t, ht, .inr (.inr hr)⟩
  have pin : ∀ (cfg : ChannelConfig) (buf : List Byte) (p : Int) (t : State), ReadyEffect cfg buf s t →
      ∃ t', whenValidPin cfg p s (.next t) = .next t' ∧ ((∃ e, t' = raise e s) ∨ ReadyEffect cfg buf s t') := by
    intro cfg buf p t hr
    rcases whenValidPin_cases cfg p s (.next t) with ⟨-, h⟩ | ⟨-, h⟩
    · exact ⟨_, h, .inl ⟨_, rfl⟩⟩
    · exact ⟨_, h, .inr hr⟩
  have fillCase : ∀ (v : Byte) (b : Bool), ∃ t, fillAll v b s = .next t ∧
      ((∃ e, t = raise e s) ∨ (∃ cfg buf, s.phase = .ready cfg buf ∧ ReadyEffect cfg buf s t)) := by
    intro v b
    refine ready _ fun cfg buf _ => ?_
    cases b
    · exact ⟨_, rfl, .inr (.inr (.inl ⟨fill cfg v, fun _ => length_fill cfg v, rfl⟩))⟩
    · exact ⟨_, rfl, .inr (.inr (.inr ⟨fill cfg v, fun _ => length_fill cfg v, rfl⟩))⟩
  cases i with
  | construct n d c l =>
    simp only [exec, execConstruct]
    cases hp : s.phase with
    | ready cfg buf => exact ⟨_, rfl, .inl ⟨_, rfl⟩⟩
    | unconstructed =>
      simp only
      split_ifs with h1 h2 h3
      · exact ⟨_, rfl, .inl ⟨_, rfl⟩⟩
      · exact ⟨_, rfl, .inl ⟨_, rfl⟩⟩
      · exact ⟨_, rfl, .inl ⟨_, rfl⟩⟩
      · exact ⟨_, rfl, .inr (.inl ⟨n, d, c, l, rfl, trivial, legal_of_checks h1 h2 h3, rfl⟩)⟩
  | setAll values =>
    refine lift _ (ready _ fun cfg buf _ => ?_)
    by_cases h : values.length = cfg.length
    · exact ⟨_, by simp only [h, if_true]; rfl, .inr (.inr (.inr ⟨values, fun _ => h, rfl⟩))⟩
    · exact ⟨_, by simp only [h, if_false]; rfl, .inl ⟨_, rfl⟩⟩
  | getAll => exact lift _ (ready _ fun cfg buf _ => ⟨_, rfl, .inr (.inl ⟨buf, rfl⟩)⟩)
  | setPin p v =>
    exact lift _ (ready _ fun cfg buf _ => pin cfg buf p _ (.inr (.inr ⟨writePin buf p v, by simp, rfl⟩)))
  | getPin p => exact lift _ (ready _ fun cfg buf _ => pin cfg buf p _ (.inl ⟨_, rfl⟩))
  | setNoUpdate p v =>
    exact lift _ (ready _ fun cfg buf _ => pin cfg buf p _ (.inr (.inl ⟨writePin buf p v, by simp, rfl⟩)))
  | setAllLow => exact lift _ (fillCase _ _)
  | setAllHigh => exact lift _ (fillCase _ _)
  | setAllLowNoUpdate => exact lift _ (fillCase _ _)
  | setAllHighNoUpdate => exact lift _ (fillCase _ _)
  | updateRegisters =>
    refine lift _ (ready _ fun cfg buf hp => ⟨_, rfl, .inr (.inr (.inr ⟨buf, fun h => h, ?_⟩))⟩)
    rw [transmit_eq_storeAndTransmit hp]

/-- All that a step can do: wait, take a reset, run a command, refuse an illegal word, or stop on a transaction the
transport cannot deliver. -/
theorem step_cases (s : State) :
    (s.port = [] ∧ step s = .next s) ∨
    (∃ rest, s.port = .reset :: rest ∧ step s = .next (takeReset { s with port := rest })) ∨
    (∃ w p rest i, s.port = .transaction w p :: rest ∧ decodeTransaction w p = .command i ∧
      step s = exec i { s with port := rest }) ∨
    (∃ w p rest c, s.port = .transaction w p :: rest ∧ decodeTransaction w p = .illegal c ∧
      step s = .next (raise (.illegalCommand c) { s with port := rest })) ∨
    (∃ w p rest, s.port = .transaction w p :: rest ∧ decodeTransaction w p = .misframed ∧
      step s = .fault .payloadNotAsFramed) := by
  rcases fetch_cases s with ⟨h, hf⟩ | ⟨rest, h, hf⟩ | ⟨w, p, rest, i, h, hd, hf⟩ | ⟨w, p, rest, c, h, hd, hf⟩ |
    ⟨w, p, rest, h, hd, hf⟩
  · exact .inl ⟨h, by simp [step, hf]⟩
  · exact .inr (.inl ⟨rest, h, by simp [step, hf]⟩)
  · exact .inr (.inr (.inl ⟨w, p, rest, i, h, hd, by simp [step, hf]⟩))
  · exact .inr (.inr (.inr (.inl ⟨w, p, rest, c, h, hd, by simp [step, hf, fail]⟩)))
  · exact .inr (.inr (.inr (.inr ⟨w, p, rest, h, hd, by simp [step, hf]⟩)))

/-- Every error carries codes of R180 and R181. -/
theorem error_codes_legal (e : CommandError) : (e.code, e.causeCode) ∈ legalCodes := by
  rcases e with (_ | _ | _ | _) | _ | _ | (_ | _) | _ <;> decide

/-- No error has the code of a completed command (R180). -/
theorem error_code_ne (e : CommandError) : e.code ≠ 0x00#8 := by
  rcases e with (_ | _ | _ | _) | _ | _ | (_ | _) | _ <;> decide

/-- SET with a valid index on a constructed block (R130). -/
theorem execSetPin_valid {s : State} {cfg : ChannelConfig} {buf : List Byte} {p : Int} {v : Level}
    (h : s.phase = .ready cfg buf) (hp : validPin cfg p = true) :
    exec (.setPin p v) s = .next (respondOk [] (storeAndTransmit cfg (writePin buf p v) s)) := by
  simp only [exec, execSetPin, whenReady_ready h, whenValidPin, hp, if_true, done]

/-- SETNOUPDATE with a valid index on a constructed block (R134). -/
theorem execSetNoUpdate_valid {s : State} {cfg : ChannelConfig} {buf : List Byte} {p : Int} {v : Level}
    (h : s.phase = .ready cfg buf) (hp : validPin cfg p = true) :
    exec (.setNoUpdate p v) s = .next (respondOk [] (setBuf cfg (writePin buf p v) s)) := by
  simp only [exec, execSetNoUpdate, whenReady_ready h, whenValidPin, hp, if_true, done]

/-- GET with a valid index on a constructed block (R132). -/
theorem execGetPin_valid {s : State} {cfg : ChannelConfig} {buf : List Byte} {p : Int}
    (h : s.phase = .ready cfg buf) (hp : validPin cfg p = true) :
    exec (.getPin p) s = .next (respondOk [bitByte (readPin buf p)] s) := by
  simp only [exec, execGetPin, whenReady_ready h, whenValidPin, hp, if_true, done]

/-- What a command that completes on a constructed block does, by whether it transmits (R26, R59). -/
def CompletedEffect (i : Instr) (cfg : ChannelConfig) (buf : List Byte) (s t : State) : Prop :=
  (transmits i = true ∧ (∀ n d c l, i ≠ .construct n d c l) ∧ ∃ buf', t = respondOk [] (storeAndTransmit cfg buf' s)) ∨
  (i = .getAll ∧ t = respondOk buf s) ∨
  (∃ p, i = .getPin p ∧ t = respondOk [bitByte (readPin buf p)] s) ∨
  (transmits i = false ∧ i ≠ .getAll ∧ (∀ p, i ≠ .getPin p) ∧ ∃ buf', t = respondOk [] (setBuf cfg buf' s))

/-- `exec_cases` with the kind of command told apart: an error, a CONSTRUCT, or one of the four effects on a constructed
block. -/
theorem exec_effect {i : Instr} {s t : State} (h : exec i s = .next t) :
    (∃ e, t = raise e s) ∨
    (∃ n d c l, i = .construct n d c l ∧ s.phase = .unconstructed ∧
      ({ n := n, data := d, clock := c, latch := l } : ChannelConfig).Legal ∧
      t = respondOk [] (construct { n := n, data := d, clock := c, latch := l } s)) ∨
    (∃ cfg buf, s.phase = .ready cfg buf ∧ CompletedEffect i cfg buf s t) := by
  have ready : ∀ body : ChannelConfig → List Byte → Result, whenReady s body = .next t →
      (∀ cfg buf, s.phase = .ready cfg buf → body cfg buf = .next t →
        (∃ e, t = raise e s) ∨ CompletedEffect i cfg buf s t) →
      (∃ e, t = raise e s) ∨ ∃ cfg buf, s.phase = .ready cfg buf ∧ CompletedEffect i cfg buf s t := by
    intro body hb hbody
    rcases whenReady_cases s body with ⟨-, e⟩ | ⟨cfg, buf, hp, e⟩ <;> rw [e] at hb
    · cases hb; exact .inl ⟨_, rfl⟩
    · exact (hbody cfg buf hp hb).imp id fun hc => ⟨cfg, buf, hp, hc⟩
  have lift : ((∃ e, t = raise e s) ∨ ∃ cfg buf, s.phase = .ready cfg buf ∧ CompletedEffect i cfg buf s t) → _ :=
    fun hc => hc.imp id fun hr => Or.inr (a := ∃ n d c l, i = .construct n d c l ∧ s.phase = .unconstructed ∧
      ({ n := n, data := d, clock := c, latch := l } : ChannelConfig).Legal ∧
      t = respondOk [] (construct { n := n, data := d, clock := c, latch := l } s)) hr
  have pin : ∀ (cfg : ChannelConfig) (buf : List Byte) (p : Int) (u : State), whenValidPin cfg p s (.next u) = .next t →
      (t = u → CompletedEffect i cfg buf s t) → (∃ e, t = raise e s) ∨ CompletedEffect i cfg buf s t := by
    intro cfg buf p u hu hc
    rcases whenValidPin_cases cfg p s (.next u) with ⟨-, e⟩ | ⟨-, e⟩ <;> rw [e] at hu
    · cases hu; exact .inl ⟨_, rfl⟩
    · cases hu; exact .inr (hc rfl)
  cases i with
  | construct n d c l =>
    obtain ⟨u, hu, hc⟩ := exec_cases (.construct n d c l) s
    cases hu.symm.trans h
    rcases hc with he | hc | ⟨cfg, buf, hp, -⟩
    · exact .inl he
    · exact .inr (.inl hc)
    · simp only [exec, execConstruct, hp, fail] at h
      cases h; exact .inl ⟨_, rfl⟩
  | setAll values =>
    refine lift (ready _ h fun cfg buf _ hb => ?_)
    split at hb
    · cases hb; exact .inr (.inl ⟨rfl, by simp, _, rfl⟩)
    · cases hb; exact .inl ⟨_, rfl⟩
  | getAll => exact lift (ready _ h fun cfg buf _ hb => by cases hb; exact .inr (.inr (.inl ⟨rfl, rfl⟩)))
  | setPin p v =>
    exact lift (ready _ h fun cfg buf _ hb => pin cfg buf p _ hb fun e => .inl ⟨rfl, by simp, _, e⟩)
  | getPin p => exact lift (ready _ h fun cfg buf _ hb => pin cfg buf p _ hb fun e => .inr (.inr (.inl ⟨_, rfl, e⟩)))
  | setNoUpdate p v =>
    exact lift (ready _ h fun cfg buf _ hb => pin cfg buf p _ hb fun e =>
      .inr (.inr (.inr ⟨rfl, by simp, by simp, _, e⟩)))
  | setAllLow =>
    exact lift (ready _ h fun cfg buf _ hb => by cases hb; exact .inr (.inl ⟨rfl, by simp, _, rfl⟩))
  | setAllHigh =>
    exact lift (ready _ h fun cfg buf _ hb => by cases hb; exact .inr (.inl ⟨rfl, by simp, _, rfl⟩))
  | setAllLowNoUpdate =>
    exact lift (ready _ h fun cfg buf _ hb => by
      cases hb; exact .inr (.inr (.inr (.inr ⟨rfl, by simp, by simp, _, rfl⟩))))
  | setAllHighNoUpdate =>
    exact lift (ready _ h fun cfg buf _ hb => by
      cases hb; exact .inr (.inr (.inr (.inr ⟨rfl, by simp, by simp, _, rfl⟩))))
  | updateRegisters =>
    refine lift (ready _ h fun cfg buf hp hb => ?_)
    rw [transmit_eq_storeAndTransmit hp] at hb
    cases hb; exact .inr (.inl ⟨rfl, by simp, _, rfl⟩)

end Sys2Proof.Machine
end

