-- ==== Sys2Proof/Laws/History.lean ====
section
/-! SUPPORT. What TRACE, read from its beginning, says of a block with a history of transmissions: the lines, SENT and
the chips after it (44_transmit.md R157, R160, R161, R163). -/

namespace Sys2Proof.Machine

variable {cfg : ChannelConfig}

/-- One more transmission at the end of the history is one more at the end of TRACE. -/
theorem traceOf_append (cfg : ChannelConfig) (history : List (List Byte)) (sent : List Byte) :
    traceOf cfg (history ++ [sent]) = traceOf cfg history ++ transmitEvents cfg sent := by
  simp [traceOf]

/-- A history of whole transmissions leaves no bit in the shift stages that is not committed (R161). -/
theorem shifted_traceOf (h : cfg.Legal) (history : List (List Byte)) :
    ((traceOf cfg history).foldl (Sampler.read cfg) .start).shifted = [] := by
  rcases List.eq_nil_or_concat history with rfl | ⟨hs, sent, rfl⟩
  · simpa [traceOf, Sampler.start] using (read_setupEvents h Sampler.start).1
  · rw [List.concat_eq_append, traceOf_append, List.foldl_append, (read_transmitEvents h _ sent).1]

/-- What a history of transmissions leaves on the lines: CLOCK and LATCH low, DATA the last bit sent (R157). -/
theorem lines_traceOf (h : cfg.Legal) (history : List (List Byte)) (sent : List Byte)
    (hlen : ∀ b ∈ history ++ [sent], b.length = cfg.length) :
    (traceOf cfg (history ++ [sent])).foldl (Lines.apply cfg) .reset =
      { data := { mode := .output, level := .driven (readBit sent 0 0) }
        clock := { mode := .output, level := .driven false }
        latch := { mode := .output, level := .driven false } } := by
  induction history using List.reverseRecOn generalizing sent with
  | nil =>
    rw [traceOf_append, List.foldl_append]
    cases sent with
    | nil => have := hlen [] (by simp); have := h.1; simp at *; omega
    | cons b bs => rw [lines_transmitEvents h]; simp [traceOf, lines_setupEvents h, readBit, readByte]
  | append_singleton hs last ih =>
    rw [traceOf_append, List.foldl_append, ih last fun b hb => hlen b (by simp at *; tauto)]
    cases sent with
    | nil => have := hlen [] (by simp); have := h.1; simp at *; omega
    | cons b bs => rw [lines_transmitEvents h]; simp [readBit, readByte]

/-- A constructed block has a legal configuration, BUF of its size, and a history of transmissions, the last of which
sent `sent` (R23, R24, R30). -/
theorem State.Inv.history {s : State} {buf : List Byte} (hi : s.Inv) (h : s.phase = .ready cfg buf) :
    cfg.Legal ∧ buf.length = cfg.length ∧
      ∃ hs sent, (∀ b ∈ hs ++ [sent], b.length = cfg.length) ∧ s.trace = traceOf cfg (hs ++ [sent]) ∧
        s.lines = s.trace.foldl (Lines.apply cfg) .reset := by
  obtain ⟨hphase, -, hrec⟩ := hi
  rw [h] at hphase
  simp only [State.Recorded, h] at hrec
  obtain ⟨⟨history, hne, hlen, htrace⟩, hlines⟩ := hrec
  refine ⟨hphase.1, hphase.2, ?_⟩
  rcases List.eq_nil_or_concat history with rfl | ⟨hs, sent, rfl⟩
  · exact absurd rfl hne
  · rw [List.concat_eq_append] at hlen htrace
    exact ⟨hs, sent, hlen, htrace, hlines⟩

/-- A block that is not constructed has emitted nothing (R28, R30). -/
theorem State.Inv.blank {s : State} (hi : s.Inv) (h : s.phase = .unconstructed) : s.trace = [] ∧ s.lines = .reset := by
  have := hi.2.2
  simp only [State.Recorded, h] at this
  exact this

theorem State.sentBits_ready {s : State} {buf : List Byte} (h : s.phase = .ready cfg buf) :
    s.sentBits = Machine.sentBits cfg s.trace := by
  simp [State.sentBits, h]

end Sys2Proof.Machine
end

