-- ==== Sys2Proof/Laws/PerInstr.lean ====
section
/-! SUPPORT. What is said of every command as syntax, one lemma per constructor. PayloadFraming: the payload the
encoder gives a well-formed command has exactly the length its header word announces (30_encoding.md R90). -/

namespace Sys2Proof.Laws.PayloadFraming

/-- A receiver that has the header word takes exactly the command's payload (R86, R90). -/
def Statement (i : Instr) : Prop :=
  wellFormed i = true → (encodePayload i).length = payloadLen (encodeHeader i)

theorem construct (n : BitVec 16) (d c l : PinId) : Statement (.construct n d c l) := by
  intro _
  have h := opcodeField_of_selects (by decide) (encodeHeader_construct n d c l).1
  rw [payloadLen, h]
  rfl

theorem setAll (values : List Byte) : Statement (.setAll values) := by
  intro hw
  obtain ⟨hs, hlen⟩ := encodeHeader_setAll values
  have h := opcodeField_of_selects (by decide) hs
  have hw' : values.length ≤ 65535 := by simpa [wellFormed, encodablePayload] using hw
  rw [payloadLen, h, hlen]
  simp [opcodeField, encodePayload]
  omega

theorem getAll : Statement .getAll := fun _ => by decide

theorem setPin (p : Int) (v : Level) : Statement (.setPin p v) := by
  intro _
  obtain ⟨hs, -, -⟩ := pinValueWord 0x40000000#32 v (BitVec.ofInt 16 p) (by decide)
  have h : opcodeField (encodeHeader (.setPin p v)) = 0x4#4 :=
    opcodeField_of_selects (r := ⟨.setPin, 0x40000000#32, 0xFFFE0000#32⟩) (by decide)
      (by simpa [OpcodeRow.selects, encodeHeader] using hs)
  rw [payloadLen, h]
  rfl

theorem getPin (p : Int) : Statement (.getPin p) := by
  intro _
  have h := opcodeField_of_selects (by decide) (encodeHeader_getPin p).1
  rw [payloadLen, h]
  rfl

theorem setNoUpdate (p : Int) (v : Level) : Statement (.setNoUpdate p v) := by
  intro _
  obtain ⟨hs, -, -⟩ := pinValueWord 0x60000000#32 v (BitVec.ofInt 16 p) (by decide)
  have h : opcodeField (encodeHeader (.setNoUpdate p v)) = 0x6#4 :=
    opcodeField_of_selects (r := ⟨.setNoUpdate, 0x60000000#32, 0xFFFE0000#32⟩) (by decide)
      (by simpa [OpcodeRow.selects, encodeHeader] using hs)
  rw [payloadLen, h]
  rfl

theorem setAllLow : Statement .setAllLow := fun _ => by decide

theorem setAllHigh : Statement .setAllHigh := fun _ => by decide

theorem setAllLowNoUpdate : Statement .setAllLowNoUpdate := fun _ => by decide

theorem setAllHighNoUpdate : Statement .setAllHighNoUpdate := fun _ => by decide

theorem updateRegisters : Statement .updateRegisters := fun _ => by decide

end Sys2Proof.Laws.PayloadFraming
end

