-- ==== Sys2Proof/Tests/Slice0.lean ====
section
/-! SUPPORT. The model's own tests: what WellFormed refuses, every constructor's word written out from the spec's encoding
(30_encoding.md R82 to R88), one step per instruction against 95_test_vectors.md, and for each obligation with
hypotheses a witness that meets them. -/

namespace Sys2Proof.Tests

open Sys2Proof.Machine

/-! ## Helpers -/

/-- The channel of 95_test_vectors.md: DATA = 11, CLOCK = 12, LATCH = 8. -/
def channel (n : BitVec 16) : ChannelConfig := { n := n, data := 11#8, clock := 12#8, latch := 8#8 }

/-- A block with that channel that has transmitted `sent` once and holds `buf`. -/
def ready (n : BitVec 16) (sent buf : List Byte) : State :=
  { State.reset with
    phase := .ready (channel n) buf
    lines := (traceOf (channel n) [sent]).foldl (Lines.apply (channel n)) .reset
    trace := traceOf (channel n) [sent] }

/-- A state with one transaction on its port. -/
def sending (w : Word) (payload : List Byte) (s : State) : State := { s with port := [.transaction w payload] }

/-- The next state of an outcome that is one; the reset state otherwise. -/
def after (r : Result) : State :=
  match r with
  | .next t => t
  | .fault _ => State.reset
  | .refused _ => State.reset

/-- BUF of a state; empty while UNCONSTRUCTED. -/
def bufOf (s : State) : List Byte :=
  match s.phase with
  | .unconstructed => []
  | .ready _ buf => buf

/-- The data of the last response, with its codes. -/
def answer (s : State) : Option Response := s.responses.getLast?

/-! ## WellFormed -/

theorem test_wellFormed_set_refuses_32768 : wellFormed (.setPin 32768 true) = false := by decide

theorem test_wellFormed_get_refuses_minus_32769 : wellFormed (.getPin (-32769)) = false := by decide

theorem test_wellFormed_setNoUpdate_refuses_32768 : wellFormed (.setNoUpdate 32768 false) = false := by decide

theorem test_wellFormed_setAll_refuses_65536_bytes : wellFormed (.setAll (List.replicate 65536 0x00#8)) = false := by
  rw [wellFormed, encodablePayload, List.length_replicate]
  decide

theorem test_wellFormed_accepts_the_bounds :
    wellFormed (.setPin 32767 true) = true ∧ wellFormed (.getPin (-32768)) = true ∧
      wellFormed (.setAll (List.replicate 65535 0x00#8)) = true := by
  rw [wellFormed, wellFormed, wellFormed, encodablePayload, List.length_replicate]
  decide

/-! ## Decoding: words written out bit by bit (R82, R88; 95_test_vectors.md 2.1) -/

/-- OPC 0001, reserved zeros, LEN 2; payload DATA 11, CLOCK 12, LATCH 8. -/
theorem test_decode_construct :
    decodeTransaction 0b00010000000000000000000000000010#32 [0b00001011#8, 0b00001100#8, 0b00001000#8] =
      .command (.construct 2#16 11#8 12#8 8#8) := by decide

/-- OPC 0010, reserved zeros, LEN 2; payload d[0], d[1]. -/
theorem test_decode_setAll :
    decodeTransaction 0b00100000000000000000000000000010#32 [0b00000001#8, 0b00000000#8] =
      .command (.setAll [0x01#8, 0x00#8]) := by decide

/-- OPC 0011, reserved zeros. -/
theorem test_decode_getAll :
    decodeTransaction 0b00110000000000000000000000000000#32 [] = .command .getAll := by decide

/-- OPC 0100, reserved zeros, V 1, PIN 9. -/
theorem test_decode_set :
    decodeTransaction 0b01000000000000010000000000001001#32 [] = .command (.setPin 9 true) := by decide

/-- OPC 0101, reserved zeros, PIN all ones: -1. -/
theorem test_decode_get :
    decodeTransaction 0b01010000000000001111111111111111#32 [] = .command (.getPin (-1)) := by decide

/-- OPC 0110, reserved zeros, V 1, PIN 3. -/
theorem test_decode_setNoUpdate :
    decodeTransaction 0b01100000000000010000000000000011#32 [] = .command (.setNoUpdate 3 true) := by decide

/-- OPC 0111 and zeros. -/
theorem test_decode_setAllLow :
    decodeTransaction 0b01110000000000000000000000000000#32 [] = .command .setAllLow := by decide

/-- OPC 1000 and zeros. -/
theorem test_decode_setAllHigh :
    decodeTransaction 0b10000000000000000000000000000000#32 [] = .command .setAllHigh := by decide

/-- OPC 1001 and zeros. -/
theorem test_decode_setAllLowNoUpdate :
    decodeTransaction 0b10010000000000000000000000000000#32 [] = .command .setAllLowNoUpdate := by decide

/-- OPC 1010 and zeros. -/
theorem test_decode_setAllHighNoUpdate :
    decodeTransaction 0b10100000000000000000000000000000#32 [] = .command .setAllHighNoUpdate := by decide

/-- OPC 1011 and zeros. -/
theorem test_decode_updateRegisters :
    decodeTransaction 0b10110000000000000000000000000000#32 [] = .command .updateRegisters := by decide

/-- 2.1: reserved opcodes, and reserved bits of formats L, Z, PV and P. -/
theorem test_decode_illegal_words :
    decodeTransaction 0x00000000#32 [] = .illegal .reservedOpcode ∧
      decodeTransaction 0xC0000000#32 [] = .illegal .reservedOpcode ∧
      decodeTransaction 0xFFFFFFFF#32 [] = .illegal .reservedOpcode ∧
      decodeTransaction 0x10010002#32 [0x0B#8, 0x0C#8, 0x08#8] = .illegal .reservedBit ∧
      decodeTransaction 0x30000001#32 [] = .illegal .reservedBit ∧
      decodeTransaction 0x40020000#32 [] = .illegal .reservedBit ∧
      decodeTransaction 0x50010000#32 [] = .illegal .reservedBit ∧
      decodeTransaction 0xB0000100#32 [] = .illegal .reservedBit := by decide

/-- 2.1: the ends of the PIN field. -/
theorem test_decode_pin_bounds :
    decodeTransaction 0x40008000#32 [] = .command (.setPin (-32768) false) ∧
      decodeTransaction 0x40007FFF#32 [] = .command (.setPin 32767 false) := by decide

/-- The bytes of P1 steps 1 and 2, sent one after the other: the first transaction, and what is left. -/
theorem test_decode_stream :
    decode [0x10#8, 0x00#8, 0x00#8, 0x02#8, 0x0B#8, 0x0C#8, 0x08#8, 0x60#8, 0x01#8, 0x00#8, 0x00#8] =
      .command (.construct 2#16 11#8 12#8 8#8) [0x60#8, 0x01#8, 0x00#8, 0x00#8] := by decide

/-- The opcode table's numbering: the word alone, and a SETALL word whose two payload bytes stand above bit 31. -/
theorem test_table_word :
    decodeTableWord 32 0x40010009 = some (.setPin 9 true) ∧
      decodeTableWord 48 0x223420000002 = some (.setAll [0x34#8, 0x22#8]) ∧
      decodeTableWord 32 0x10000001 = some (.construct 1#16 0#8 0#8 0#8) := by decide

/-! ## One step of each instruction (95_test_vectors.md 2.2 to 2.6) -/

/-- 2.2, first row: the 32 events of CONSTRUCT 1, 11, 12, 8 from reset. -/
theorem test_construct_events :
    (after (exec (.construct 1#16 11#8 12#8 8#8) State.reset)).trace =
      [.pinMode 12#8, .pinMode 11#8, .pinMode 8#8, .write 12#8 false, .write 11#8 false, .write 8#8 false] ++
        (List.replicate 8 [LineEvent.write 11#8 false, .write 12#8 true, .write 12#8 false]).flatten ++
        [.write 8#8 true, .write 8#8 false] := by decide

/-- 2.2: zero length before collision; too large; collision; already constructed first. -/
theorem test_construct_checks :
    answer (after (exec (.construct 0#16 5#8 5#8 5#8) State.reset)) = some ⟨0x01#8, 0x01#8, []⟩ ∧
      answer (after (exec (.construct 4097#16 11#8 12#8 8#8) State.reset)) = some ⟨0x01#8, 0x02#8, []⟩ ∧
      answer (after (exec (.construct 1#16 5#8 6#8 5#8) State.reset)) = some ⟨0x01#8, 0x03#8, []⟩ ∧
      answer (after (exec (.construct 0#16 5#8 5#8 5#8) (ready 1#16 [0x00#8] [0x00#8]))) =
        some ⟨0x01#8, 0x04#8, []⟩ := by decide

/-- 2.3: SETALL [0x5A] sends 01011010. -/
theorem test_setAll_transmits :
    bufOf (after (exec (.setAll [0x5A#8]) (ready 1#16 [0x00#8] [0x00#8]))) = [0x5A#8] ∧
      (after (exec (.setAll [0x5A#8]) (ready 1#16 [0x00#8] [0x00#8]))).sentBits =
        some [false, true, false, true, true, false, true, false] := by decide

/-- 2.3: a wrong length leaves BUF and emits nothing. -/
theorem test_setAll_wrong_size :
    bufOf (after (exec (.setAll [1#8, 2#8, 3#8]) (ready 2#16 [0x12#8, 0x34#8] [0x12#8, 0x34#8]))) = [0x12#8, 0x34#8] ∧
      answer (after (exec (.setAll [1#8, 2#8, 3#8]) (ready 2#16 [0x12#8, 0x34#8] [0x12#8, 0x34#8]))) =
        some ⟨0x03#8, 0x00#8, []⟩ := by decide

/-- 2.3: GETALL answers BUF[0] first. -/
theorem test_getAll_answers :
    answer (after (exec .getAll (ready 2#16 [0x00#8, 0x00#8] [0xA5#8, 0x3C#8]))) =
      some ⟨0x00#8, 0x00#8, [0xA5#8, 0x3C#8]⟩ := by decide

/-- 2.4: SET 15, 1 with N = 2 sends 10000000 00000000. -/
theorem test_set_last_pin :
    bufOf (after (exec (.setPin 15 true) (ready 2#16 [0x00#8, 0x00#8] [0x00#8, 0x00#8]))) = [0x00#8, 0x80#8] ∧
      (after (exec (.setPin 15 true) (ready 2#16 [0x00#8, 0x00#8] [0x00#8, 0x00#8]))).sentBits =
        some (true :: List.replicate 15 false) := by decide

/-- 2.4: SET 0, 0 clears its bit alone; SET 16, 1 with N = 2 is a RangeError. -/
theorem test_set_clears_and_range :
    bufOf (after (exec (.setPin 0 false) (ready 1#16 [0x81#8] [0x81#8]))) = [0x80#8] ∧
      answer (after (exec (.setPin 16 true) (ready 2#16 [0x00#8, 0x00#8] [0x00#8, 0x00#8]))) =
        some ⟨0x02#8, 0x00#8, []⟩ := by decide

/-- 2.4: GET 7, GET 1 and GET 8 with BUF = [0x81]. -/
theorem test_get_answers :
    answer (after (exec (.getPin 7) (ready 1#16 [0x81#8] [0x81#8]))) = some ⟨0x00#8, 0x00#8, [0x01#8]⟩ ∧
      answer (after (exec (.getPin 1) (ready 1#16 [0x81#8] [0x81#8]))) = some ⟨0x00#8, 0x00#8, [0x00#8]⟩ ∧
      answer (after (exec (.getPin 8) (ready 1#16 [0x81#8] [0x81#8]))) = some ⟨0x02#8, 0x00#8, []⟩ := by decide

/-- 2.4: SETNOUPDATE 3, 1 with BUF = [0x00] emits nothing. -/
theorem test_setNoUpdate_writes :
    bufOf (after (exec (.setNoUpdate 3 true) (ready 1#16 [0x00#8] [0x00#8]))) = [0x08#8] ∧
      (after (exec (.setNoUpdate 3 true) (ready 1#16 [0x00#8] [0x00#8]))).trace =
        (ready 1#16 [0x00#8] [0x00#8]).trace := by decide

/-- 2.5: SETALLLOW with BUF = [0xFF, 0x10] adds 50 events. -/
theorem test_setAllLow_clears :
    bufOf (after (exec .setAllLow (ready 2#16 [0xFF#8, 0x10#8] [0xFF#8, 0x10#8]))) = [0x00#8, 0x00#8] ∧
      (after (exec .setAllLow (ready 2#16 [0xFF#8, 0x10#8] [0xFF#8, 0x10#8]))).trace.length = 6 + 50 + 50 := by decide

/-- 2.5: SETALLHIGH sends 11111111. -/
theorem test_setAllHigh_sets :
    bufOf (after (exec .setAllHigh (ready 1#16 [0x00#8] [0x00#8]))) = [0xFF#8] ∧
      (after (exec .setAllHigh (ready 1#16 [0x00#8] [0x00#8]))).sentBits = some (List.replicate 8 true) := by decide

/-- 2.5: SETALLLOWNOUPDATE leaves SENT = [0x5A]. -/
theorem test_setAllLowNoUpdate_keeps_sent :
    bufOf (after (exec .setAllLowNoUpdate (ready 1#16 [0x5A#8] [0x5A#8]))) = [0x00#8] ∧
      (after (exec .setAllLowNoUpdate (ready 1#16 [0x5A#8] [0x5A#8]))).sentBits =
        some [false, true, false, true, true, false, true, false] := by decide

/-- 2.5: SETALLHIGHNOUPDATE leaves SENT = [0x00]. -/
theorem test_setAllHighNoUpdate_keeps_sent :
    bufOf (after (exec .setAllHighNoUpdate (ready 1#16 [0x00#8] [0x00#8]))) = [0xFF#8] ∧
      (after (exec .setAllHighNoUpdate (ready 1#16 [0x00#8] [0x00#8]))).sentBits = some (List.replicate 8 false) := by
  decide

/-- 2.5: with HIGH_NOUPDATE_TRANSMITS = true the same command sends 11111111. -/
theorem test_highNoUpdate_of_the_reference_firmware :
    (after (highNoUpdate true (ready 1#16 [0x00#8] [0x00#8]))).sentBits = some (List.replicate 8 true) := by decide

/-- 2.5: the 26 events of UPDATEREGISTERS with BUF = [0x80], and the lines after them. -/
theorem test_updateRegisters_events :
    (after (exec .updateRegisters (ready 1#16 [0x00#8] [0x80#8]))).trace =
        (ready 1#16 [0x00#8] [0x80#8]).trace ++
          [.write 11#8 true, .write 12#8 true, .write 12#8 false] ++
          (List.replicate 7 [LineEvent.write 11#8 false, .write 12#8 true, .write 12#8 false]).flatten ++
          [.write 8#8 true, .write 8#8 false] ∧
      (after (exec .updateRegisters (ready 1#16 [0x00#8] [0x80#8]))).lines =
        ⟨⟨.output, .driven false⟩, ⟨.output, .driven false⟩, ⟨.output, .driven false⟩⟩ := by decide

/-- 2.6, third row: two chips' worth of bits into four chips. -/
theorem test_observer_longer_chain :
    outputs (Observer.watchAll (fun _ => false) (channel 2#16)
      { lines := (ready 2#16 [0x00#8, 0x00#8] [0x11#8, 0x22#8]).lines
        chips := [⟨0xA0#8, 0x00#8⟩, ⟨0xA1#8, 0x00#8⟩, ⟨0xA2#8, 0x00#8⟩, ⟨0xA3#8, 0x00#8⟩] }
      (transmitEvents (channel 2#16) [0x11#8, 0x22#8])).chips = [0x11#8, 0x22#8, 0xA0#8, 0xA1#8] := by decide

/-- 2.6, last row: three chips' worth of bits into two chips. -/
theorem test_observer_shorter_chain :
    outputs (Observer.watchAll (fun _ => false) (channel 3#16)
      { lines := (ready 3#16 [0x00#8, 0x00#8, 0x00#8] [0x11#8, 0x22#8, 0x33#8]).lines
        chips := [⟨0x55#8, 0x00#8⟩, ⟨0xAA#8, 0x00#8⟩] }
      (transmitEvents (channel 3#16) [0x11#8, 0x22#8, 0x33#8])).chips = [0x11#8, 0x22#8] := by decide

/-- 2.4, last row: an illegal word on an unconstructed block is IllegalCommand, not NotConstructed. -/
theorem test_step_decode_before_phase :
    answer (after (step (sending 0x40020000#32 [] State.reset))) = some ⟨0x04#8, 0x02#8, []⟩ := by decide

/-- P2, step 1: GET 0 from reset. -/
theorem test_step_not_constructed :
    answer (after (step (State.reset.withFetchWord 32 0x50000000))) = some ⟨0x05#8, 0x00#8, []⟩ := by decide

/-- R200: a reset on the port. -/
theorem test_step_reset :
    (after (step { ready 1#16 [0x81#8] [0x81#8] with port := [.reset] })).phase = .unconstructed ∧
      (after (step { ready 1#16 [0x81#8] [0x81#8] with port := [.reset] })).trace = [] := by decide

/-! ## Witnesses: states and operands that meet the hypotheses of the obligations -/

/-- States of a constructed block that meet the invariant, before and after a NoUpdate command. -/
theorem witness_inv_of_ready :
    (ready 1#16 [0x81#8] [0x7E#8]).Inv ∧ (ready 2#16 [0x01#8, 0x80#8] [0x01#8, 0x80#8]).Inv :=
  ⟨⟨⟨by unfold ChannelConfig.Legal; decide, rfl⟩, ⟨by decide, by decide⟩,
      ⟨[[0x81#8]], by decide, by decide, rfl⟩, rfl⟩,
    ⟨by unfold ChannelConfig.Legal; decide, rfl⟩, ⟨by decide, by decide⟩,
      ⟨[[0x01#8, 0x80#8]], by decide, by decide, rfl⟩, rfl⟩

/-- HeaderWordSelectsItsRow, clause by clause, the free fields at their ends. -/
theorem witness_HeaderWordSelectsItsRow :
    0x1000FFFF#32 &&& 0xFFFF0000#32 = 0x10000000#32 ∧
      (0x20000000#32 &&& 0xFFFF0000#32 = 0x20000000#32 ∧ ([] : List Byte).length = ((0x20000000#32).extractLsb' 0 16).toNat) ∧
      (0x2000FFFF#32 &&& 0xFFFF0000#32 = 0x20000000#32 ∧
        (List.replicate 65535 0xFF#8).length = ((0x2000FFFF#32).extractLsb' 0 16).toNat) ∧
      0x30000000#32 &&& 0xFFFFFFFF#32 = 0x30000000#32 ∧
      0x40018000#32 &&& 0xFFFE0000#32 = 0x40000000#32 ∧
      0x50007FFF#32 &&& 0xFFFF0000#32 = 0x50000000#32 ∧
      0x6001FFFF#32 &&& 0xFFFE0000#32 = 0x60000000#32 ∧
      0x70000000#32 &&& 0xFFFFFFFF#32 = 0x70000000#32 ∧
      0x80000000#32 &&& 0xFFFFFFFF#32 = 0x80000000#32 ∧
      0x90000000#32 &&& 0xFFFFFFFF#32 = 0x90000000#32 ∧
      0xA0000000#32 &&& 0xFFFFFFFF#32 = 0xA0000000#32 ∧
      0xB0000000#32 &&& 0xFFFFFFFF#32 = 0xB0000000#32 := by
  rw [List.length_replicate]
  decide

/-- IllegalWordEndsWithIllegalCommand: a reserved opcode beside a reserved bit, a reserved bit of each format at the end
of its range, and a word that is neither. -/
theorem witness_IllegalWordEndsWithIllegalCommand :
    (sending 0xFFFFFFFF#32 [] State.reset).port = [.transaction 0xFFFFFFFF#32 []] ∧
      ([] : List Byte).length = payloadLen 0xFFFFFFFF#32 ∧
      (0xFFFFFFFF#32).extractLsb' 28 4 ∈ [0x0#4, 0xC#4, 0xD#4, 0xE#4, 0xF#4] ∧
      ((0x38000000#32).extractLsb' 28 4 ∈ [0x3#4, 0x7#4, 0x8#4, 0x9#4, 0xA#4, 0xB#4] ∧
        (0x38000000#32).extractLsb' 0 28 ≠ 0#28 ∧ ([] : List Byte).length = payloadLen 0x38000000#32) ∧
      ((0x10010002#32).extractLsb' 28 4 ∈ [0x1#4, 0x2#4, 0x5#4] ∧ (0x10010002#32).extractLsb' 16 12 ≠ 0#12 ∧
        [0x0B#8, 0x0C#8, 0x08#8].length = payloadLen 0x10010002#32) ∧
      ((0x40020000#32).extractLsb' 28 4 ∈ [0x4#4, 0x6#4] ∧ (0x40020000#32).extractLsb' 17 11 ≠ 0#11 ∧
        ([] : List Byte).length = payloadLen 0x40020000#32) ∧
      ¬ (0x4001FFFF#32).extractLsb' 28 4 ∈ [0x0#4, 0xC#4, 0xD#4, 0xE#4, 0xF#4] ∧
      (0x4001FFFF#32).extractLsb' 17 11 = 0#11 := by
  decide

/-- PayloadLengthEndsTheTransaction: a legal and an illegal word with a payload. -/
theorem witness_PayloadLengthEndsTheTransaction :
    [0x01#8, 0x00#8].length = payloadLen 0x20000002#32 ∧ [0x0B#8, 0x0C#8, 0x08#8].length = payloadLen 0x1FFF0000#32 ∧
      (sending 0x20000002#32 [0x01#8, 0x00#8] State.reset).port =
        [.transaction 0x20000002#32 [0x01#8, 0x00#8]] := by
  decide

/-- PinFieldIsTwosComplement: the last pin of the longest chain. -/
theorem witness_PinFieldIsTwosComplement :
    (-1 : Int) < 0 ∧ (channel 4096#16).Legal ∧ validPin (channel 4096#16) 32767 = true := by
  unfold ChannelConfig.Legal
  decide

/-- DecodeOfEncodeIsTheCommand: the ends of PIN and of the payload length. -/
theorem witness_DecodeOfEncodeIsTheCommand :
    wellFormed (.setPin (-32768) true) = true ∧ wellFormed (.setNoUpdate 32767 false) = true ∧
      wellFormed (.setAll (List.replicate 65535 0xA5#8)) = true := by
  rw [wellFormed, wellFormed, wellFormed, encodablePayload, List.length_replicate]
  decide

/-- EncodeOfDecodeIsTheStream: a stream with more after the transaction. -/
theorem witness_EncodeOfDecodeIsTheStream :
    decode [0x40#8, 0x01#8, 0xFF#8, 0xFF#8, 0x30#8] = .command (.setPin (-1) true) [0x30#8] := by decide

/-- StepRunsTheDecodedCommand: SET 9, 1 with a reset waiting behind it. -/
theorem witness_StepRunsTheDecodedCommand :
    ({ State.reset with port := [.transaction 0x40010009#32 [], .reset] } : State).port =
        .transaction 0x40010009#32 [] :: [.reset] ∧
      decodeTransaction 0x40010009#32 [] = .command (.setPin 9 true) := by decide

/-- FetchWordRunsTheTableWord: a word with payload bytes. -/
theorem witness_FetchWordRunsTheTableWord : decodeTableWord 48 0x223420000002 = some (.setAll [0x34#8, 0x22#8]) := by
  decide

/-- StepWaitsWithNothingSent. -/
theorem witness_StepWaitsWithNothingSent : (ready 1#16 [0x81#8] [0x81#8]).port = [] := by decide

/-- StepStopsOnlyOnMisframedTransaction: the stop is reached. -/
theorem witness_StepStopsOnlyOnMisframedTransaction :
    step (sending 0x30000000#32 [0x01#8] State.reset) = .fault .payloadNotAsFramed ∧
      [0x01#8].length ≠ payloadLen 0x30000000#32 := ⟨rfl, by decide⟩

/-- ResetForgetsTheBlock and ResetKeepsPortAndResponses: a constructed block with a reset first on its port. -/
theorem witness_ResetForgetsTheBlock :
    ({ ready 1#16 [0x81#8] [0x81#8] with port := [.reset, .transaction 0x30000000#32 []] } : State).port =
      .reset :: [.transaction 0x30000000#32 []] := by decide

/-- PhaseMovesOnlyByConstructAndReset, clause by clause. -/
theorem witness_PhaseMovesOnlyByConstructAndReset :
    (exec (.construct 1#16 11#8 12#8 8#8) State.reset =
        .next (after (exec (.construct 1#16 11#8 12#8 8#8) State.reset)) ∧
      (after (exec (.construct 1#16 11#8 12#8 8#8) State.reset)).status.last = 0x00#8) ∧
    (step (sending 0x10000001#32 [11#8, 12#8, 8#8] State.reset) =
        .next (after (step (sending 0x10000001#32 [11#8, 12#8, 8#8] State.reset))) ∧
      (sending 0x10000001#32 [11#8, 12#8, 8#8] State.reset).phase = .unconstructed ∧
      (after (step (sending 0x10000001#32 [11#8, 12#8, 8#8] State.reset))).phase ≠ .unconstructed) ∧
    (step { ready 1#16 [0x81#8] [0x81#8] with port := [.reset] } =
        .next (after (step { ready 1#16 [0x81#8] [0x81#8] with port := [.reset] })) ∧
      (ready 1#16 [0x81#8] [0x81#8]).phase ≠ .unconstructed ∧
      (after (step { ready 1#16 [0x81#8] [0x81#8] with port := [.reset] })).phase = .unconstructed) :=
  ⟨⟨rfl, by decide⟩, ⟨rfl, by decide, by decide⟩, rfl, by decide, by decide⟩

/-- CfgIsWrittenOnceByConstruct, clause by clause. -/
theorem witness_CfgIsWrittenOnceByConstruct :
    (State.reset.phase = .unconstructed ∧
      (after (exec (.construct 1#16 11#8 12#8 8#8) State.reset)).phase = .ready (channel 1#16) [0x00#8]) ∧
    ((sending 0x40010000#32 [] (ready 1#16 [0x00#8] [0x00#8])).phase = .ready (channel 1#16) [0x00#8] ∧
      step (sending 0x40010000#32 [] (ready 1#16 [0x00#8] [0x00#8])) =
        .next (after (step (sending 0x40010000#32 [] (ready 1#16 [0x00#8] [0x00#8])))) ∧
      (after (step (sending 0x40010000#32 [] (ready 1#16 [0x00#8] [0x00#8])))).phase =
        .ready (channel 1#16) [0x01#8]) :=
  ⟨⟨rfl, by decide⟩, by decide, rfl, by decide⟩

/-- StepKeepsCfgLegalAndBufSize and StepKeepsTheInvariant: a constructed block runs SETALLHIGH. -/
theorem witness_StepKeepsTheInvariant :
    (sending 0x80000000#32 [] (ready 2#16 [0x01#8, 0x80#8] [0x01#8, 0x80#8])).Inv ∧
      (channel 2#16).Legal ∧ [0x01#8, 0x80#8].length = (channel 2#16).n.toNat ∧
      step (sending 0x80000000#32 [] (ready 2#16 [0x01#8, 0x80#8] [0x01#8, 0x80#8])) =
        .next (after (step (sending 0x80000000#32 [] (ready 2#16 [0x01#8, 0x80#8] [0x01#8, 0x80#8])))) ∧
      (after (step (sending 0x80000000#32 [] (ready 2#16 [0x01#8, 0x80#8] [0x01#8, 0x80#8])))).phase =
        .ready (channel 2#16) [0xFF#8, 0xFF#8] :=
  ⟨witness_inv_of_ready.2, witness_inv_of_ready.2.1.1, rfl, rfl, by decide⟩

/-- ErrorChangesOnlyStatus: SET 16, 1 on a two-chip block. -/
theorem witness_ErrorChangesOnlyStatus :
    step (sending 0x40010010#32 [] (ready 2#16 [0x00#8, 0x00#8] [0x00#8, 0x00#8])) =
        .next (after (step (sending 0x40010010#32 [] (ready 2#16 [0x00#8, 0x00#8] [0x00#8, 0x00#8])))) ∧
      (after (step (sending 0x40010010#32 [] (ready 2#16 [0x00#8, 0x00#8] [0x00#8, 0x00#8])))).status.last ≠ 0x00#8 :=
  ⟨rfl, by decide⟩

/-- FirstFailingCheckDecides: a transaction for each check of R189, in order, and one that passes them all. -/
theorem witness_FirstFailingCheckDecides :
    ([] : List Byte).length = payloadLen 0xC0000001#32 ∧
      firstError (decodeTransaction 0xC0000001#32 []) .unconstructed = some (.illegalCommand .reservedOpcode) ∧
      firstError (decodeTransaction 0x40020000#32 []) .unconstructed = some (.illegalCommand .reservedBit) ∧
      firstError (decodeTransaction 0x50000000#32 []) .unconstructed = some .notConstructed ∧
      firstError (decodeTransaction 0x10000000#32 [5#8, 5#8, 5#8]) (.ready (channel 1#16) [0x00#8]) =
        some (.configuration .alreadyConstructed) ∧
      firstError (decodeTransaction 0x10000000#32 [5#8, 5#8, 5#8]) .unconstructed =
        some (.configuration .lengthZero) ∧
      firstError (decodeTransaction 0x10001001#32 [5#8, 5#8, 5#8]) .unconstructed =
        some (.configuration .lengthTooLarge) ∧
      firstError (decodeTransaction 0x10001000#32 [5#8, 6#8, 6#8]) .unconstructed =
        some (.configuration .pinCollision) ∧
      firstError (decodeTransaction 0x40010008#32 []) (.ready (channel 1#16) [0x00#8]) = some .range ∧
      firstError (decodeTransaction 0x20000000#32 []) (.ready (channel 1#16) [0x00#8]) = some .sizeMismatch ∧
      firstError (decodeTransaction 0x40010007#32 []) (.ready (channel 1#16) [0x00#8]) = none := by decide

/-- CommandBeforeConstructIsRefused: GETALL from reset. -/
theorem witness_CommandBeforeConstructIsRefused :
    State.reset.phase = .unconstructed ∧ ∀ n d c l, Instr.getAll ≠ .construct n d c l := by simp [State.reset]

/-- PinOutOfRangeIsRangeError: the indices next to the range of a two-chip block. -/
theorem witness_PinOutOfRangeIsRangeError :
    (ready 2#16 [0x00#8, 0x00#8] [0x00#8, 0x00#8]).phase = .ready (channel 2#16) [0x00#8, 0x00#8] ∧
      ((-1 : Int) < 0 ∨ 8 * ((channel 2#16).n.toNat : Int) ≤ -1) ∧
      ((16 : Int) < 0 ∨ 8 * ((channel 2#16).n.toNat : Int) ≤ 16) := by decide

/-- WrongLengthIsSizeMismatch: one byte short, and one too many. -/
theorem witness_WrongLengthIsSizeMismatch :
    (ready 2#16 [0x12#8, 0x34#8] [0x12#8, 0x34#8]).phase = .ready (channel 2#16) [0x12#8, 0x34#8] ∧
      [0xFF#8].length ≠ (channel 2#16).n.toNat ∧ [1#8, 2#8, 3#8].length ≠ (channel 2#16).n.toNat := by decide

/-- ConstructInitialisesTheBlock and ConstructEmitsItsEventCount, clause by clause: the lengths 0, 1, 4096 and 4097, and
each collision. -/
theorem witness_ConstructInitialisesTheBlock :
    (ready 1#16 [0x00#8] [0x00#8]).phase = .ready (channel 1#16) [0x00#8] ∧
      State.reset.phase = .unconstructed ∧
      4096 < (4097#16).toNat ∧
      (1 ≤ (4096#16).toNat ∧ (4096#16).toNat ≤ 4096) ∧ (1 ≤ (1#16).toNat ∧ (1#16).toNat ≤ 4096) ∧
      ((5#8 : PinId) = 5#8 ∨ (5#8 : PinId) = 6#8 ∨ (5#8 : PinId) = 6#8) ∧
      ((5#8 : PinId) = 6#8 ∨ (5#8 : PinId) = 5#8 ∨ (6#8 : PinId) = 5#8) ∧
      ((5#8 : PinId) = 6#8 ∨ (5#8 : PinId) = 6#8 ∨ (6#8 : PinId) = 6#8) ∧
      ((0#8 : PinId) ≠ 1#8 ∧ (0#8 : PinId) ≠ 255#8 ∧ (1#8 : PinId) ≠ 255#8) := by decide

/-- AfterConstructEverythingIsZero: reset meets the invariant, and a chip's worth of anything stands on the lines. -/
theorem witness_AfterConstructEverythingIsZero :
    State.reset.Inv ∧ State.reset.phase = .unconstructed ∧ (11#8 : PinId) ≠ 12#8 ∧ (11#8 : PinId) ≠ 8#8 ∧
      (12#8 : PinId) ≠ 8#8 ∧ [(⟨0x55#8, 0xAA#8⟩ : Chip)].length = (1#16).toNat ∧
      (0 : Int) ≤ 7 ∧ (7 : Int) < 8 * ((1#16).toNat : Int) :=
  ⟨⟨trivial, ⟨by decide, by decide⟩, rfl, rfl⟩, rfl, by decide, by decide, by decide, rfl, by decide, by decide⟩

/-- SetAllReplacesBufAndTransmits, GetAllAnswersBuf, the fill commands and UPDATEREGISTERS: a block in either phase. -/
theorem witness_SetAllReplacesBufAndTransmits :
    State.reset.phase = .unconstructed ∧
      (ready 2#16 [0x12#8, 0x34#8] [0x12#8, 0x34#8]).phase = .ready (channel 2#16) [0x12#8, 0x34#8] ∧
      [0x12#8, 0x34#8].length = (channel 2#16).n.toNat ∧ ([] : List Byte).length ≠ (channel 2#16).n.toNat := by decide

/-- GetAllAnswersBuf, its last clause: a GETALL and a command after it. -/
theorem witness_GetAllAnswersBuf :
    exec .getAll (ready 1#16 [0x81#8] [0x81#8]) = .next (after (exec .getAll (ready 1#16 [0x81#8] [0x81#8]))) ∧
      exec .setAllLow (after (exec .getAll (ready 1#16 [0x81#8] [0x81#8]))) =
        .next (after (exec .setAllLow (after (exec .getAll (ready 1#16 [0x81#8] [0x81#8]))))) := ⟨rfl, rfl⟩

/-- SetAllGetAllRoundTrip. -/
theorem witness_SetAllGetAllRoundTrip :
    exec (.setAll [0xA5#8]) (ready 1#16 [0x00#8] [0x00#8]) =
        .next (after (exec (.setAll [0xA5#8]) (ready 1#16 [0x00#8] [0x00#8]))) ∧
      (after (exec (.setAll [0xA5#8]) (ready 1#16 [0x00#8] [0x00#8]))).status.last = 0x00#8 := ⟨rfl, by decide⟩

/-- PinIndexNamesOneBit: the last pin of two bytes. -/
theorem witness_PinIndexNamesOneBit :
    (0 : Int) ≤ 15 ∧ (15 : Int) < 8 * (([0x00#8, 0x80#8] : List Byte).length : Int) ∧ 7 < 8 ∧
      byteOf 15 = byteOf 15 ∧ bitOf 15 = bitOf 15 := by decide

/-- The statements about SET, GET and SETNOUPDATE (SetWritesOnePinAndTransmits, GetAnswersTheBit, SetNoUpdateWritesOnePin,
PinsAreIndependent, PinAndByteViewsAgree): a constructed block, the ends of the range, and the indices next to it. -/
theorem witness_PinCommands :
    State.reset.phase = .unconstructed ∧
      (ready 2#16 [0x00#8, 0x00#8] [0x00#8, 0x00#8]).phase = .ready (channel 2#16) [0x00#8, 0x00#8] ∧
      [0x00#8, 0x00#8].length = (channel 2#16).n.toNat ∧
      ((0 : Int) ≤ 0 ∧ (0 : Int) < 8 * ((channel 2#16).n.toNat : Int)) ∧
      ((0 : Int) ≤ 15 ∧ (15 : Int) < 8 * ((channel 2#16).n.toNat : Int)) ∧
      ((-1 : Int) < 0 ∧ 8 * ((channel 2#16).n.toNat : Int) ≤ 16) ∧ (0 : Int) ≠ 15 := by decide

/-- BatchEqualsRunOfSets: two changes at the ends of a two-chip block. -/
theorem witness_BatchEqualsRunOfSets :
    (ready 2#16 [0x01#8, 0x80#8] [0x01#8, 0x80#8]).Inv ∧
      (ready 2#16 [0x01#8, 0x80#8] [0x01#8, 0x80#8]).phase = .ready (channel 2#16) [0x01#8, 0x80#8] ∧
      [((0 : Int), true), (15, false)] ≠ [] ∧
      ∀ x ∈ [((0 : Int), true), (15, false)], 0 ≤ x.1 ∧ x.1 < 8 * ((channel 2#16).n.toNat : Int) :=
  ⟨witness_inv_of_ready.2, rfl, by decide, by decide⟩

/-- The reserved-bit clause of every command's statement: each row of the table with bit 27 set, and its payload. -/
theorem witness_ReservedBitsAreIllegal :
    ∀ r ∈ opcodeRows, (r.pattern ||| 0x08000000#32).extractLsb' 28 4 = opcodeField r.pattern ∧
      (r.pattern ||| 0x08000000#32) &&& r.mask ≠ r.pattern ∧
      (List.replicate (payloadLen (r.pattern ||| 0x08000000#32)) 0x00#8).length =
        payloadLen (r.pattern ||| 0x08000000#32) := by decide

/-- The statements about events: a legal channel, two roles, and a register file of its length. -/
theorem witness_Events :
    (channel 2#16).Legal ∧ LineRole.clock ≠ .data ∧ [0x01#8, 0x80#8].length = (channel 2#16).n.toNat ∧ 7 < 8 ∧
      (ready 2#16 [0x01#8, 0x80#8] [0x01#8, 0x80#8]).lines.latch.level = .driven false ∧
      48 + 2 ≤ (transmitEvents (channel 2#16) [0x01#8, 0x80#8]).length := by
  unfold ChannelConfig.Legal
  decide

/-- LinesRestBetweenCommands, OutputsShowSent and ChainOrderShowsInTheStream: a constructed two-chip block and two chips. -/
theorem witness_LinesRestBetweenCommands :
    (ready 2#16 [0x01#8, 0x80#8] [0x01#8, 0x80#8]).Inv ∧
      (ready 2#16 [0x01#8, 0x80#8] [0x01#8, 0x80#8]).phase = .ready (channel 2#16) [0x01#8, 0x80#8] ∧
      (channel 2#16).n = 2#16 ∧ [(⟨0x55#8, 0x00#8⟩ : Chip), ⟨0xAA#8, 0xFF#8⟩].length = (channel 2#16).n.toNat :=
  ⟨witness_inv_of_ready.2, rfl, rfl, rfl⟩

/-- SideEffectsOfEachKindOfCommand: SET 0, 1 completes. -/
theorem witness_SideEffectsOfEachKindOfCommand :
    exec (.setPin 0 true) (ready 1#16 [0x00#8] [0x00#8]) =
        .next (after (exec (.setPin 0 true) (ready 1#16 [0x00#8] [0x00#8]))) ∧
      (after (exec (.setPin 0 true) (ready 1#16 [0x00#8] [0x00#8]))).status.last = 0x00#8 := ⟨rfl, by decide⟩

/-- FrameOfEveryCommand and ResponseDataByCommand: a state whose sticky bit is set, and each kind of answer. -/
theorem witness_ResponseDataByCommand :
    (ready 1#16 [0x81#8] [0x81#8]).phase.Legal ∧
      (after (exec (.getPin 8) (ready 1#16 [0x81#8] [0x81#8]))).status.errSeen = true ∧
      (after (exec (.getPin 8) (ready 1#16 [0x81#8] [0x81#8]))).status.last ≠ 0x00#8 ∧
      (after (exec (.getPin 7) (ready 1#16 [0x81#8] [0x81#8]))).status.last = 0x00#8 ∧
      (after (exec .getAll (ready 1#16 [0x81#8] [0x81#8]))).status.last = 0x00#8 :=
  ⟨⟨by unfold ChannelConfig.Legal; decide, rfl⟩, by decide, by decide, by decide, by decide⟩

/-- SentFollowsTheLastTransmission: a transmitting command that completes, one that does not transmit, and an error. -/
theorem witness_SentFollowsTheLastTransmission :
    (ready 1#16 [0x81#8] [0x7E#8]).Inv ∧
      (exec .updateRegisters (ready 1#16 [0x81#8] [0x7E#8]) =
          .next (after (exec .updateRegisters (ready 1#16 [0x81#8] [0x7E#8]))) ∧
        transmits .updateRegisters = true ∧
        (after (exec .updateRegisters (ready 1#16 [0x81#8] [0x7E#8]))).status.last = 0x00#8) ∧
      (exec .setAllHighNoUpdate (ready 1#16 [0x81#8] [0x7E#8]) =
          .next (after (exec .setAllHighNoUpdate (ready 1#16 [0x81#8] [0x7E#8]))) ∧
        transmits .setAllHighNoUpdate = false) ∧
      (after (exec (.setPin 8 true) (ready 1#16 [0x81#8] [0x7E#8]))).status.last ≠ 0x00#8 :=
  ⟨witness_inv_of_ready.1, ⟨rfl, rfl, by decide⟩, ⟨rfl, rfl⟩, by decide⟩

/-- TransmissionCommitsTheChain: an observer of as many chips as the chain, of more and of fewer. -/
theorem witness_TransmissionCommitsTheChain :
    (channel 2#16).Legal ∧ [0x11#8, 0x22#8].length = (channel 2#16).n.toNat ∧
      (ready 2#16 [0x00#8, 0x00#8] [0x11#8, 0x22#8]).lines.clock.level = .driven false ∧
      (ready 2#16 [0x00#8, 0x00#8] [0x11#8, 0x22#8]).lines.latch.level = .driven false ∧
      48 + 2 ≤ (transmitEvents (channel 2#16) [0x11#8, 0x22#8]).length ∧
      [(⟨0x55#8, 0x00#8⟩ : Chip), ⟨0xAA#8, 0x00#8⟩].length = (channel 2#16).n.toNat ∧
      ((0 : Int) ≤ 15 ∧ (15 : Int) < 8 * ((channel 2#16).n.toNat : Int)) := by
  unfold ChannelConfig.Legal
  decide

/-- OutputsAreStaleUntilATransmission: a batch of NoUpdate commands, and a transmitting command that completes. -/
theorem witness_OutputsAreStaleUntilATransmission :
    (∀ i ∈ [Instr.setNoUpdate 0 true, .getPin 15, .setAllHighNoUpdate], transmits i = false) ∧
      (ready 1#16 [0x81#8] [0x7E#8]).Inv ∧ transmits .updateRegisters = true ∧
      exec .updateRegisters (ready 1#16 [0x81#8] [0x7E#8]) =
        .next (after (exec .updateRegisters (ready 1#16 [0x81#8] [0x7E#8]))) ∧
      (after (exec .updateRegisters (ready 1#16 [0x81#8] [0x7E#8]))).status.last = 0x00#8 ∧
      (after (exec .updateRegisters (ready 1#16 [0x81#8] [0x7E#8]))).phase = .ready (channel 1#16) [0x7E#8] ∧
      [(⟨0x55#8, 0xAA#8⟩ : Chip)].length = (channel 1#16).n.toNat :=
  ⟨by decide, witness_inv_of_ready.1, rfl, rfl, by decide, by decide, rfl⟩

end Sys2Proof.Tests
end

/-! ## The state of the block: what every step keeps of it (10_state.md) -/

namespace Sys2Proof.Machine

/-! ### What a step that answers a next state can be -/

/-- `step_cases` for a step that answers `t`: it waits, takes a reset, runs a command, or refuses an illegal word. -/
theorem step_next_cases {s t : State} (h : step s = .next t) :
    t = s ∨
    (∃ rest, s.port = .reset :: rest ∧ t = takeReset { s with port := rest }) ∨
    (∃ w p rest i, s.port = .transaction w p :: rest ∧ decodeTransaction w p = .command i ∧
      exec i { s with port := rest } = .next t) ∨
    (∃ rest e, t = raise e { s with port := rest }) := by
  rcases step_cases s with ⟨-, hs⟩ | ⟨rest, hp, hs⟩ | ⟨w, p, rest, i, hp, hd, hs⟩ | ⟨w, p, rest, c, -, -, hs⟩ |
    ⟨w, p, rest, -, -, hs⟩ <;> rw [hs] at h
  · cases h; exact .inl rfl
  · cases h; exact .inr (.inl ⟨rest, hp, rfl⟩)
  · exact .inr (.inr (.inl ⟨w, p, rest, i, hp, hd, h⟩))
  · cases h; exact .inr (.inr (.inr ⟨rest, _, rfl⟩))
  · cases h

/-- `exec_cases` for a given next state. -/
theorem exec_next_cases {i : Instr} {s t : State} (h : exec i s = .next t) :
    (∃ e, t = raise e s) ∨
    (∃ n d c l, i = .construct n d c l ∧ s.phase = .unconstructed ∧
      ({ n := n, data := d, clock := c, latch := l } : ChannelConfig).Legal ∧
      t = respondOk [] (construct { n := n, data := d, clock := c, latch := l } s)) ∨
    (∃ cfg buf, s.phase = .ready cfg buf ∧ ReadyEffect cfg buf s t) := by
  obtain ⟨u, hu, hc⟩ := exec_cases i s
  cases hu.symm.trans h
  exact hc

/-- A CONSTRUCT ends in an error or constructs a block that was not constructed (R110). -/
theorem exec_construct_cases {n : BitVec 16} {d c l : PinId} {s t : State}
    (h : exec (.construct n d c l) s = .next t) :
    (∃ e, t = raise e s) ∨
    (s.phase = .unconstructed ∧ t = respondOk [] (construct { n := n, data := d, clock := c, latch := l } s)) := by
  rcases exec_effect h with he | ⟨n', d', c', l', hi, hp, -, ht⟩ | ⟨cfg, buf, -, hc⟩
  · exact .inl he
  · cases hi; exact .inr ⟨hp, ht⟩
  · rcases hc with ⟨-, hne, -⟩ | ⟨hi, -⟩ | ⟨p, hi, -⟩ | ⟨hf, -⟩
    · exact absurd rfl (hne n d c l)
    · cases hi
    · cases hi
    · cases hf

/-! ### The phase -/

@[simp] theorem construct_phase (cfg : ChannelConfig) (s : State) :
    (construct cfg s).phase = .ready cfg (fill cfg 0x00#8) := rfl

/-- A command of a constructed block leaves it constructed, with the same CFG and a BUF of the same size (R22, R24). -/
theorem ReadyEffect.phase {cfg : ChannelConfig} {buf : List Byte} {s t : State} (hp : s.phase = .ready cfg buf)
    (h : ReadyEffect cfg buf s t) :
    ∃ buf', t.phase = .ready cfg buf' ∧ (buf.length = cfg.length → buf'.length = cfg.length) := by
  rcases h with ⟨data, rfl⟩ | ⟨buf', hl, rfl⟩ | ⟨buf', hl, rfl⟩
  · exact ⟨buf, hp, id⟩
  · exact ⟨buf', rfl, hl⟩
  · exact ⟨buf', rfl, hl⟩

/-- All that a step can do to PHASE, CFG and BUF (R20, R22, R24). -/
inductive PhaseStep (s t : State) : Prop where
  /-- It leaves them. -/
  | same (heq : t.phase = s.phase)
  /-- It takes a reset. -/
  | reset {rest : List HostInput} (hport : s.port = .reset :: rest) (ht : t.phase = .unconstructed)
  /-- It runs a CONSTRUCT that succeeds on an unconstructed block. -/
  | construct {w : Word} {payload : List Byte} {rest : List HostInput} {n : BitVec 16} {d c l : PinId}
      (hport : s.port = .transaction w payload :: rest)
      (hdecode : decodeTransaction w payload = .command (.construct n d c l)) (hok : t.status.last = 0x00#8)
      (hs : s.phase = .unconstructed)
      (hlegal : ({ n := n, data := d, clock := c, latch := l } : ChannelConfig).Legal)
      (ht : t.phase = .ready { n := n, data := d, clock := c, latch := l }
        (fill { n := n, data := d, clock := c, latch := l } 0x00#8))
  /-- It writes BUF, whose size stays. -/
  | write {cfg : ChannelConfig} {buf buf' : List Byte} (hs : s.phase = .ready cfg buf) (ht : t.phase = .ready cfg buf')
      (hlen : buf.length = cfg.length → buf'.length = cfg.length)

theorem step_phase {s t : State} (h : step s = .next t) : PhaseStep s t := by
  rcases step_next_cases h with rfl | ⟨rest, hport, rfl⟩ | ⟨w, p, rest, i, hport, hd, hx⟩ | ⟨rest, e, rfl⟩
  · exact .same rfl
  · exact .reset hport rfl
  · rcases exec_next_cases hx with ⟨e, rfl⟩ | ⟨n, d, c, l, rfl, hp, hc, rfl⟩ | ⟨cfg, buf, hp, he⟩
    · exact .same rfl
    · exact .construct hport hd rfl hp hc rfl
    · obtain ⟨buf', ht, hl⟩ := he.phase hp
      exact .write hp ht hl
  · exact .same rfl

/-- Every step keeps CFG legal and BUF of CFG.N bytes (R23, R24). -/
theorem step_keeps_phase_legal {s t : State} (hlegal : s.phase.Legal) (h : step s = .next t) : t.phase.Legal := by
  cases step_phase h with
  | same heq => rwa [heq]
  | reset _ ht => rw [ht]; trivial
  | construct _ _ _ _ hc ht => rw [ht]; exact ⟨hc, length_fill _ _⟩
  | write hs ht hlen => rw [hs] at hlegal; rw [ht]; exact ⟨hlegal.1, hlen hlegal.2⟩

/-- No step that leaves a constructed block constructed changes CFG (R22). -/
theorem step_keeps_cfg {s t : State} {cfg cfg' : ChannelConfig} {buf buf' : List Byte} (hs : s.phase = .ready cfg buf)
    (h : step s = .next t) (ht : t.phase = .ready cfg' buf') : cfg' = cfg := by
  cases step_phase h with
  | same heq => cases ht.symm.trans (heq.trans hs); rfl
  | reset _ hu => cases ht.symm.trans hu
  | construct _ _ _ hu => cases hs.symm.trans hu
  | write hs' ht' => cases hs.symm.trans hs'; cases ht.symm.trans ht'; rfl

/-! ### The frame of a command -/

/-- What a command's effect leaves alone before it ends (R29, R30, R92): it may append to TRACE, and it touches neither
STATUS nor the responses, the port or the draw index. -/
def OnlyEmits (s u : State) : Prop :=
  (∃ es, u.trace = s.trace ++ es) ∧ u.status = s.status ∧ u.responses = s.responses ∧ u.port = s.port ∧
    u.draws = s.draws

theorem OnlyEmits.refl (s : State) : OnlyEmits s s := ⟨⟨[], by simp⟩, rfl, rfl, rfl, rfl⟩

theorem onlyEmits_setBuf (cfg : ChannelConfig) (buf : List Byte) (s : State) : OnlyEmits s (setBuf cfg buf s) :=
  ⟨⟨[], by simp⟩, rfl, rfl, rfl, rfl⟩

theorem onlyEmits_storeAndTransmit (cfg : ChannelConfig) (buf : List Byte) (s : State) :
    OnlyEmits s (storeAndTransmit cfg buf s) :=
  ⟨⟨_, storeAndTransmit_trace cfg buf s⟩, rfl, rfl, rfl, rfl⟩

theorem onlyEmits_construct (cfg : ChannelConfig) (s : State) : OnlyEmits s (construct cfg s) :=
  ⟨⟨setupEvents cfg ++ transmitEvents cfg (fill cfg 0x00#8), by simp [construct]⟩, rfl, rfl, rfl, rfl⟩

/-- How every command ends: with an error and nothing else changed, or with an answer after an effect that leaves the
frame alone (R92, R185). -/
theorem exec_ends (i : Instr) (s : State) :
    ∃ t, exec i s = .next t ∧ ((∃ e, t = raise e s) ∨ ∃ data u, OnlyEmits s u ∧ t = respondOk data u) := by
  obtain ⟨t, ht, hc⟩ := exec_cases i s
  refine ⟨t, ht, ?_⟩
  rcases hc with he | ⟨n, d, c, l, -, -, -, hu⟩ | ⟨cfg, buf, -, ⟨data, hu⟩ | ⟨buf', -, hu⟩ | ⟨buf', -, hu⟩⟩
  · exact .inl he
  · exact .inr ⟨_, _, onlyEmits_construct _ s, hu⟩
  · exact .inr ⟨_, _, OnlyEmits.refl s, hu⟩
  · exact .inr ⟨_, _, onlyEmits_setBuf cfg buf' s, hu⟩
  · exact .inr ⟨_, _, onlyEmits_storeAndTransmit cfg buf' s, hu⟩

/-! ### STATUS -/

theorem Status.reset_legal : Status.reset.Legal := ⟨by decide, fun h => absurd rfl h⟩

theorem Status.completed_legal (st : Status) : st.completed.Legal :=
  ⟨by simp [legalCodes], fun h => absurd rfl h⟩

theorem Status.failed_legal (st : Status) (e : CommandError) : (st.failed e).Legal :=
  ⟨error_codes_legal e, fun _ => rfl⟩

/-- Every step keeps STATUS legal: a command ends with an error or completes, and each writes codes of R180 and R181. -/
theorem step_keeps_status_legal {s t : State} (hlegal : s.status.Legal) (h : step s = .next t) : t.status.Legal := by
  rcases step_next_cases h with rfl | ⟨rest, -, rfl⟩ | ⟨w, p, rest, i, -, -, hx⟩ | ⟨rest, e, rfl⟩
  · exact hlegal
  · exact Status.reset_legal
  · obtain ⟨u, hu, hends⟩ := exec_ends i { s with port := rest }
    cases hu.symm.trans hx
    rcases hends with ⟨e, rfl⟩ | ⟨data, v, -, rfl⟩
    · exact Status.failed_legal s.status e
    · exact Status.completed_legal v.status
  · exact Status.failed_legal s.status e

/-! ### TRACE and LINES -/

theorem State.recorded_unconstructed {s : State} (hp : s.phase = .unconstructed) :
    s.Recorded ↔ s.trace = [] ∧ s.lines = .reset := by
  simp only [State.Recorded, hp]

theorem State.recorded_ready {s : State} {cfg : ChannelConfig} {buf : List Byte} (hp : s.phase = .ready cfg buf) :
    s.Recorded ↔
      (∃ history : List (List Byte), history ≠ [] ∧ (∀ sent ∈ history, sent.length = cfg.length) ∧
        s.trace = traceOf cfg history) ∧
      s.lines = s.trace.foldl (Lines.apply cfg) .reset := by
  simp only [State.Recorded, hp]

/-- A transmission adds one register file to a history; to an empty one when it is CONSTRUCT's (R30, R110). -/
theorem storeAndTransmit_recorded {s : State} {cfg : ChannelConfig} {buf : List Byte} {history : List (List Byte)}
    (hlen : ∀ sent ∈ history, sent.length = cfg.length) (htrace : s.trace = traceOf cfg history)
    (hlines : s.lines = s.trace.foldl (Lines.apply cfg) .reset) (hbuf : buf.length = cfg.length) :
    (storeAndTransmit cfg buf s).Recorded := by
  refine (State.recorded_ready (storeAndTransmit_phase cfg buf s)).2 ⟨⟨history ++ [buf], by simp, ?_, ?_⟩, ?_⟩
  · intro sent hsent
    rcases List.mem_append.1 hsent with hin | hin
    · exact hlen sent hin
    · rw [List.mem_singleton.1 hin, hbuf]
  · rw [storeAndTransmit_trace, htrace, traceOf_append]
  · rw [storeAndTransmit_lines, storeAndTransmit_trace, List.foldl_append, hlines]

/-- CONSTRUCT begins the history: the set-up, and one transmission of a BUF of zeros (R110, R111). -/
theorem construct_recorded {s : State} (cfg : ChannelConfig) (hp : s.phase = .unconstructed) (h : s.Recorded) :
    (construct cfg s).Recorded := by
  obtain ⟨htrace, hlines⟩ := (State.recorded_unconstructed hp).1 h
  refine storeAndTransmit_recorded (history := []) (by simp) ?_ ?_ (length_fill cfg _)
  · simp [htrace, traceOf]
  · simp [htrace, hlines]

/-- A command of a constructed block leaves TRACE and LINES or adds one whole transmission to them (R28, R30). -/
theorem ReadyEffect.recorded {cfg : ChannelConfig} {buf : List Byte} {s t : State} (hp : s.phase = .ready cfg buf)
    (hbuf : buf.length = cfg.length) (hs : s.Recorded) (h : ReadyEffect cfg buf s t) : t.Recorded := by
  have hr := (State.recorded_ready hp).1 hs
  rcases h with ⟨data, rfl⟩ | ⟨buf', -, rfl⟩ | ⟨buf', hl, rfl⟩
  · exact hs
  · exact (State.recorded_ready rfl).2 hr
  · obtain ⟨⟨history, -, hlen, htrace⟩, hlines⟩ := hr
    exact storeAndTransmit_recorded hlen htrace hlines (hl hbuf)

/-- Every step of a block whose BUF has CFG.N bytes keeps TRACE and LINES in agreement with the history (R28, R30). -/
theorem step_keeps_recorded {s t : State} (hphase : s.phase.Legal) (hrec : s.Recorded) (h : step s = .next t) :
    t.Recorded := by
  rcases step_next_cases h with rfl | ⟨rest, -, rfl⟩ | ⟨w, p, rest, i, -, -, hx⟩ | ⟨rest, e, rfl⟩
  · exact hrec
  · exact ⟨rfl, rfl⟩
  · rcases exec_next_cases hx with ⟨e, rfl⟩ | ⟨n, d, c, l, -, hp, -, rfl⟩ | ⟨cfg, buf, hp, he⟩
    · exact hrec
    · exact construct_recorded _ hp hrec
    · rw [show s.phase = .ready cfg buf from hp] at hphase
      exact he.recorded hp hphase.2 hrec
  · exact hrec

/-! ### One event on LINES -/

/-- An event acts on each line by that line's identifier (R28). -/
theorem line_apply (cfg : ChannelConfig) (l : Lines) (e : LineEvent) (r : LineRole) :
    (l.apply cfg e).line r = (l.line r).apply (cfg.pin r) e := by
  cases r <;> rfl

/-- The identifiers of a legal configuration tell the roles apart (R23). -/
theorem ChannelConfig.Legal.pin_ne {cfg : ChannelConfig} (h : cfg.Legal) {r q : LineRole} (hne : q ≠ r) :
    cfg.pin r ≠ cfg.pin q := by
  obtain ⟨-, -, hdc, hdl, hcl⟩ := h
  cases r <;> cases q
  case data.clock => exact hdc
  case data.latch => exact hdl
  case clock.data => exact hdc.symm
  case clock.latch => exact hcl
  case latch.data => exact hdl.symm
  case latch.clock => exact hcl.symm
  all_goals exact absurd rfl hne

/-! ### The obligations -/

/-- Settles O57: the invariant's three parts, of which TRACE and LINES need that BUF has CFG.N bytes. -/
theorem stepKeepsTheInvariant : Obligations.StepKeepsTheInvariant := by
  rintro s t ⟨hphase, hstatus, hrec⟩ h
  exact ⟨step_keeps_phase_legal hphase h, step_keeps_status_legal hstatus h, step_keeps_recorded hphase hrec h⟩

/-- Settles O14: the two moves are the cases `reset` and `construct` of `PhaseStep`. -/
theorem phaseMovesOnlyByConstructAndReset : Obligations.PhaseMovesOnlyByConstructAndReset := by
  refine ⟨rfl, ?_, ?_, ?_, ?_⟩
  · intro n d c l s t h hok
    rcases exec_construct_cases h with ⟨e, rfl⟩ | ⟨hp, rfl⟩
    · exact absurd hok (error_code_ne e)
    · exact ⟨hp, _, _, rfl⟩
  · intro s t h hs ht
    cases step_phase h with
    | same heq => exact absurd (heq.trans hs) ht
    | reset _ hu => exact absurd hu ht
    | construct hport hd hok => exact ⟨_, _, _, _, _, _, _, hport, hd, hok⟩
    | write hs' => cases hs.symm.trans hs'
  · intro s t h hs ht
    cases step_phase h with
    | same heq => exact absurd (heq.symm.trans ht) hs
    | reset hport => exact ⟨_, hport⟩
    | construct _ _ _ hu => exact absurd hu hs
    | write _ ht' => cases ht.symm.trans ht'
  · intro s rest hport
    exact ⟨takeReset { s with port := rest }, by simp [step, fetch, hport], rfl⟩

/-- Settles O15: a CONSTRUCT that errs leaves the block unconstructed, and one that does not writes its operands; the
rest is `step_keeps_cfg`. -/
theorem cfgIsWrittenOnceByConstruct : Obligations.CfgIsWrittenOnceByConstruct := by
  refine ⟨?_, fun s t cfg buf cfg' buf' hs h ht => step_keeps_cfg hs h ht⟩
  intro n d c l s t cfg buf hs h ht
  rcases exec_construct_cases h with ⟨e, rfl⟩ | ⟨-, rfl⟩
  · cases hs.symm.trans ht
  · cases ht; rfl

/-- Settles O16: the premise is `Phase.Legal` of the phase before the step, which `step_keeps_phase_legal` keeps. -/
theorem stepKeepsCfgLegalAndBufSize : Obligations.StepKeepsCfgLegalAndBufSize := by
  intro s t hs h cfg buf ht
  have hlegal : s.phase.Legal := by
    cases hp : s.phase with
    | unconstructed => trivial
    | ready cfg₀ buf₀ => exact hs cfg₀ buf₀ hp
  have hlegal' := step_keeps_phase_legal hlegal h
  rw [ht] at hlegal'
  refine ⟨hlegal'.1, hlegal'.2, fun cfg₀ buf₀ hp => ?_⟩
  obtain rfl := step_keeps_cfg hp h ht
  exact ⟨rfl, hlegal'.2.trans (hs cfg buf₀ hp).2.symm⟩

/-- Settles O47: the line of role `r` answers to `cfg.pin r`, and no other line does. -/
theorem eventMovesTheLineItNames : Obligations.EventMovesTheLineItNames := by
  intro cfg l r h
  refine ⟨⟨?_, fun q hq => ?_⟩, fun b => ⟨?_, fun q hq => ?_⟩⟩
  · simp [line_apply, Line.apply]
  · simp [line_apply, Line.apply, h.pin_ne hq]
  · simp [line_apply, Line.apply]
  · simp [line_apply, Line.apply, h.pin_ne hq]

/-- Settles O49: an error writes STATUS and the response alone, and an answer follows an effect that `OnlyEmits`. -/
theorem frameOfEveryCommand : Obligations.FrameOfEveryCommand := by
  intro i s
  obtain ⟨t, ht, ⟨e, rfl⟩ | ⟨data, u, ⟨⟨es, htrace⟩, hstatus, hresp, hport, hdraws⟩, rfl⟩⟩ := exec_ends i s
  · exact ⟨_, ht, ⟨[], by simp⟩, fun _ => rfl, fun _ => rfl, ⟨[], rfl⟩, rfl, rfl⟩
  · refine ⟨_, ht, ⟨es, htrace⟩, ?_, fun hne => absurd rfl hne, ⟨data, ?_⟩, hport, hdraws⟩
    · simp [hstatus]
    · simp [hresp, okCode]

end Sys2Proof.Machine

/-! ## The programmer's view: how commands reach BUF, and what they leave on the chain (20_memory.md) -/

namespace Sys2Proof.Machine

/-! ### A transaction first on the port -/

/-- The payload of a table word has the length its header announces (R90). -/
theorem length_tablePayload (nbits w : Nat) :
    (tablePayload nbits w).length = payloadLen (tableHeader nbits w) := by
  simp [tablePayload]

/-- The command of a byte stream is the one its first transaction decodes to (R81, R91). -/
theorem decodeTransaction_of_decode {w : Word} {payload rest : List Byte} {i : Instr}
    (hlen : payload.length = payloadLen w) (h : decode (headerBytes w ++ payload ++ rest) = .command i rest) :
    decodeTransaction w payload = .command i := by
  simp only [decode, receive_headerBytes w payload rest hlen] at h
  cases hd : decodeTransaction w payload with
  | command j => simpa [hd] using h
  | illegal c => simp [hd] at h
  | misframed => simp [hd] at h

/-- The command read from a table word is the one its transaction decodes to (R87). -/
theorem decodeTransaction_of_decodeTableWord {nbits w : Nat} {i : Instr} (h : decodeTableWord nbits w = some i) :
    decodeTransaction (tableHeader nbits w) (tablePayload nbits w) = .command i := by
  unfold decodeTableWord at h
  split at h
  · rename_i j hdecode
    cases h
    exact decodeTransaction_of_decode (rest := []) (length_tablePayload nbits w) (by rwa [List.append_nil])
  · cases h

/-! ### The byte and the bit of a pin index -/

theorem byteOf_eq_div {p : Int} (hp : 0 ≤ p) : (byteOf p : Int) = p / 8 := by unfold byteOf; omega

theorem bitOf_eq_mod {p : Int} (hp : 0 ≤ p) : (bitOf p : Int) = p % 8 := by unfold bitOf; omega

/-- A pin is read from bit `p % 8` of byte `p / 8` (R51). -/
theorem readPin_eq_readBit (buf : List Byte) {p : Int} (hp : 0 ≤ p) :
    readPin buf p = readBit buf (p / 8).toNat (p % 8).toNat := by
  rw [readPin, ← byteOf_eq_div hp, ← bitOf_eq_mod hp, Int.toNat_natCast, Int.toNat_natCast]

/-- Writing a pin changes bit `p % 8` of byte `p / 8` and no other (R51, R58). -/
theorem readBit_writePin (buf : List Byte) {p : Int} (v : Level) (i b : Nat) (hp : 0 ≤ p)
    (hlt : p < 8 * (buf.length : Int)) :
    readBit (writePin buf p v) i b = if (i : Int) = p / 8 ∧ (b : Int) = p % 8 then v else readBit buf i b := by
  have hbyte : byteOf p < buf.length := by unfold byteOf; omega
  rw [writePin, readBit_writeBit _ _ _ _ _ _ hbyte (bitOf_lt p), ← byteOf_eq_div hp, ← bitOf_eq_mod hp]
  simp only [Nat.cast_inj]

theorem bitByte_eq_ite (v : Level) : bitByte v = if v then 0x01#8 else 0x00#8 := by cases v <;> rfl

/-! ### The stream, element by element -/

theorem readBit_cons_zero (x : Byte) (buf : List Byte) (b : Nat) : readBit (x :: buf) 0 b = x.getLsbD b := rfl

theorem readBit_cons_succ (x : Byte) (buf : List Byte) (i b : Nat) : readBit (x :: buf) (i + 1) b = readBit buf i b :=
  rfl

theorem bitsMsbFirst_eq_map (x : Byte) : bitsMsbFirst x = (List.range 8).map fun j => x.getLsbD (7 - j) := rfl

/-- Element `k` of the stream is `BUF[N-1 - k/8][7 - k%8]` (R54). -/
theorem stream_eq_map (buf : List Byte) :
    stream buf = (List.range (8 * buf.length)).map fun k => readBit buf (buf.length - 1 - k / 8) (7 - k % 8) := by
  induction buf with
  | nil => rfl
  | cons x buf ih =>
    rw [stream_cons, ih, bitsMsbFirst_eq_map, List.length_cons, Nat.mul_succ, List.range_add, List.map_append,
      List.map_map]
    congr 1
    · refine List.map_congr_left fun k hk => ?_
      have hk : k < 8 * buf.length := List.mem_range.1 hk
      rw [show buf.length + 1 - 1 - k / 8 = buf.length - 1 - k / 8 + 1 by omega, readBit_cons_succ]
    · refine List.map_congr_left fun j hj => ?_
      have hj : j < 8 := List.mem_range.1 hj
      simp only [Function.comp_apply]
      rw [show buf.length + 1 - 1 - (8 * buf.length + j) / 8 = 0 by omega,
        show (8 * buf.length + j) % 8 = j by omega, readBit_cons_zero]

/-! ### The commands of a constructed block -/

/-- SETALL of the right length on a constructed block (R120). -/
theorem execSetAll_ready {s : State} {cfg : ChannelConfig} {buf values : List Byte} (h : s.phase = .ready cfg buf)
    (hlen : values.length = cfg.length) :
    exec (.setAll values) s = .next (respondOk [] (storeAndTransmit cfg values s)) := by
  simp only [exec, execSetAll, whenReady_ready h, hlen, if_true, done]

/-- GETALL on a constructed block (R122). -/
theorem execGetAll_ready {s : State} {cfg : ChannelConfig} {buf : List Byte} (h : s.phase = .ready cfg buf) :
    exec .getAll s = .next (respondOk buf s) := by
  simp only [exec, execGetAll, whenReady_ready h, done]

/-- UPDATEREGISTERS on a constructed block (R150). -/
theorem execUpdateRegisters_ready {s : State} {cfg : ChannelConfig} {buf : List Byte} (h : s.phase = .ready cfg buf) :
    exec .updateRegisters s = .next (respondOk [] (transmit cfg buf s)) := by
  simp only [exec, execUpdateRegisters, whenReady_ready h, done]

/-- GET with a valid index answers the bit of its byte (R132). -/
theorem execGetPin_answers {s : State} {cfg : ChannelConfig} {buf : List Byte} {p : Int} (h : s.phase = .ready cfg buf)
    (hp : validPin cfg p = true) :
    exec (.getPin p) s =
      .next (s.answered [if readBit buf (p / 8).toNat (p % 8).toNat then 0x01#8 else 0x00#8]) := by
  rw [execGetPin_valid h hp, respondOk_eq_answered, bitByte_eq_ite,
    readPin_eq_readBit buf ((validPin_iff cfg p).1 hp).1]

/-! ### What a command does by whether it transmits -/

/-- A command that does not transmit ends with an error, answers the host, or stores BUF; GET and GETALL never store
(R59). -/
theorem exec_of_not_transmits {i : Instr} (hi : transmits i = false) (s : State) :
    ∃ t, exec i s = .next t ∧
      ((∃ e, t = raise e s) ∨ (∃ data, t = respondOk data s) ∨
        (i ≠ .getAll ∧ (∀ p, i ≠ .getPin p) ∧
          ∃ cfg buf buf', s.phase = .ready cfg buf ∧ t = respondOk [] (setBuf cfg buf' s))) := by
  obtain ⟨t, ht, -⟩ := exec_cases i s
  refine ⟨t, ht, ?_⟩
  rcases exec_effect ht with he | ⟨n, d, c, l, rfl, -⟩ | ⟨cfg, buf, hp, ⟨htrue, -⟩ | ⟨-, hu⟩ | ⟨p, -, hu⟩ |
    ⟨-, hall, hpin, buf', hu⟩⟩
  · exact .inl he
  · cases hi
  · cases hi.symm.trans htrue
  · exact .inr (.inl ⟨_, hu⟩)
  · exact .inr (.inl ⟨_, hu⟩)
  · exact .inr (.inr ⟨hall, hpin, cfg, buf, buf', hp, hu⟩)

/-- A transmitting command other than CONSTRUCT, when it completes, has stored a BUF and transmitted it (R26, R59). -/
theorem exec_of_transmits {i : Instr} {s t : State} (hi : transmits i = true) (hne : ∀ n d c l, i ≠ .construct n d c l)
    (h : exec i s = .next t) (hok : t.status.last = 0x00#8) :
    ∃ cfg buf, t = respondOk [] (storeAndTransmit cfg buf s) := by
  rcases exec_effect h with ⟨e, rfl⟩ | ⟨n, d, c, l, hc, -⟩ | ⟨cfg, buf, -, ⟨-, -, buf', hu⟩ | ⟨rfl, -⟩ | ⟨p, rfl, -⟩ |
    ⟨hfalse, -⟩⟩
  · exact absurd hok (error_code_ne e)
  · exact absurd hc (hne n d c l)
  · exact ⟨cfg, buf', hu⟩
  · cases hi
  · cases hi
  · cases hi.symm.trans hfalse

/-! ### SENT and the outputs after a history of transmissions -/

/-- SENT, read from TRACE, is the stream of the register file sent last (R161). -/
theorem sentBits_traceOf {cfg : ChannelConfig} (h : cfg.Legal) (history : List (List Byte)) (sent : List Byte) :
    Machine.sentBits cfg (traceOf cfg (history ++ [sent])) = some (stream sent) := by
  rw [Machine.sentBits, traceOf_append, List.foldl_append, (read_transmitEvents h _ sent).2, shifted_traceOf h,
    List.nil_append]

/-- A history of transmissions, even an empty one, leaves CLOCK and LATCH low (R111, R157). -/
theorem clock_latch_traceOf {cfg : ChannelConfig} (h : cfg.Legal) (history : List (List Byte))
    (hlen : ∀ b ∈ history, b.length = cfg.length) :
    ((traceOf cfg history).foldl (Lines.apply cfg) .reset).clock.level = .driven false ∧
    ((traceOf cfg history).foldl (Lines.apply cfg) .reset).latch.level = .driven false := by
  rcases List.eq_nil_or_concat history with rfl | ⟨hs, last, rfl⟩
  · simp [traceOf, lines_setupEvents h]
  · rw [List.concat_eq_append] at hlen ⊢
    simp [lines_traceOf h hs last hlen]

/-- A transmission makes the outputs of `K` chips show the register file, then the old stages as far as `K` reaches
(R163, R164). -/
theorem outputs_transmitEvents {cfg : ChannelConfig} (init : LineRole → Level) (h : cfg.Legal) (o : Observer)
    (hc : o.lines.clock.level = .driven false) (hl : o.lines.latch.level = .driven false) (buf : List Byte) :
    outputs (o.watchAll init cfg (transmitEvents cfg buf)).chips = (buf ++ stages o.chips).take o.chips.length := by
  rw [chips_transmitEvents init h o hc hl, outputs_latchChips, stages_shiftBits_stream]

/-- After a history of transmissions the outputs of a correctly wired chain show the register file sent last, whatever
the chips held at reset (R163). -/
theorem outputs_traceOf {cfg : ChannelConfig} (init : LineRole → Level) (h : cfg.Legal) (history : List (List Byte))
    (sent : List Byte) (hlen : ∀ b ∈ history ++ [sent], b.length = cfg.length) (chips : List Chip)
    (hchips : chips.length = cfg.length) :
    outputs (Observer.watchAll init cfg { lines := .reset, chips := chips } (traceOf cfg (history ++ [sent]))).chips =
      sent := by
  obtain ⟨hc, hl⟩ := clock_latch_traceOf h history fun b hb => hlen b (List.mem_append_left _ hb)
  have hsent : sent.length = cfg.length := hlen sent (by simp)
  rw [traceOf_append, watchAll_append, outputs_transmitEvents init h _ (by rwa [watchAll_lines])
    (by rwa [watchAll_lines]), length_watchAll, hchips, ← hsent, List.take_left]

/-! ### The obligations -/

/-- Settles O8: `fetch` takes the transaction and `step` runs its command. -/
theorem stepRunsTheDecodedCommand : Obligations.StepRunsTheDecodedCommand := by
  intro s w payload rest i hport hd
  simp only [step, fetch, hport, hd]

/-- Settles O9: O8 for the transaction of the table word, whose removal from the port gives the state back. -/
theorem fetchWordRunsTheTableWord : Obligations.FetchWordRunsTheTableWord := fun s nbits w _ h =>
  stepRunsTheDecodedCommand (s.withFetchWord nbits w) _ _ s.port _ (withFetchWord_port s nbits w)
    (decodeTransaction_of_decodeTableWord h)

/-- Settles O28: `byteOf` and `bitOf` are the quotient and the remainder by 8, which determine the index. -/
theorem pinIndexNamesOneBit : Obligations.PinIndexNamesOneBit := by
  intro buf p hp
  refine ⟨byteOf_eq_div hp, bitOf_eq_mod hp, readPin_eq_readBit buf hp, fun q hq hbyte hbit => ?_,
    fun v i b hlt _ => readBit_writePin buf v i b hp hlt⟩
  calc
    q = 8 * (byteOf q : Int) + bitOf q := (byteOf_bitOf q hq).symm
    _ = 8 * (byteOf p : Int) + bitOf p := by rw [hbyte, hbit]
    _ = p := byteOf_bitOf p hp

/-- Settles O33: SET stores `writePin` of BUF, which GETALL answers; SETALL stores its payload, which GET reads. -/
theorem pinAndByteViewsAgree : Obligations.PinAndByteViewsAgree := by
  intro s cfg buf p hs hbuf hp hlt
  have hvalid : validPin cfg p = true := (validPin_iff cfg p).2 ⟨hp, hlt⟩
  refine ⟨fun v => ?_, fun d hd => ?_⟩
  · refine ⟨_, writePin buf p v, execSetPin_valid hs hvalid, execGetAll_ready rfl, length_writePin buf p v,
      fun i b _ _ => readBit_writePin buf v i b hp (by rwa [hbuf])⟩
  · exact ⟨_, execSetAll_ready hs hd, execGetPin_answers rfl hvalid⟩

/-- Settles O42: the stream element by element, and the shift phase as its clocked bits. -/
theorem streamSendsLastByteFirst : Obligations.StreamSendsLastByteFirst := by
  refine ⟨stream_eq_map, length_stream, fun cfg buf m h => ?_⟩
  rw [shiftPhase_eq_stream, (read_clockBits h m (stream buf)).1]

/-- Settles O48: a command that does not transmit answers or stores, one that transmits stores and sends, and
UPDATEREGISTERS leaves the BUF that the next one sends again. -/
theorem sideEffectsOfEachKindOfCommand : Obligations.SideEffectsOfEachKindOfCommand := by
  refine ⟨fun i s hi => ?_, fun i s hi => ?_, fun i s t hi h hok => ?_, fun s cfg buf hs => ?_⟩
  · have hquiet : transmits i = false := by rcases hi with rfl | ⟨p, rfl⟩ <;> rfl
    obtain ⟨t, ht, ⟨e, rfl⟩ | ⟨data, rfl⟩ | ⟨hall, hpin, -⟩⟩ := exec_of_not_transmits hquiet s
    · exact ⟨_, _, ht⟩
    · exact ⟨_, _, ht⟩
    · rcases hi with rfl | ⟨p, rfl⟩
      · exact absurd rfl hall
      · exact absurd rfl (hpin p)
  · have hquiet : transmits i = false := by rcases hi with ⟨p, v, rfl⟩ | rfl | rfl <;> rfl
    obtain ⟨t, ht, ⟨e, rfl⟩ | ⟨data, rfl⟩ | ⟨-, -, cfg, buf, buf', hs, rfl⟩⟩ := exec_of_not_transmits hquiet s
    · exact ⟨s.phase, _, _, ht, id, fun cfg buf hs => ⟨buf, hs⟩⟩
    · exact ⟨s.phase, _, _, ht, id, fun cfg buf hs => ⟨buf, hs⟩⟩
    · refine ⟨.ready cfg buf', _, _, ht, fun hu => ?_, fun cfg₀ buf₀ hs₀ => ?_⟩
      · cases hs.symm.trans hu
      · cases hs.symm.trans hs₀; exact ⟨buf', rfl⟩
  · have hsends : transmits i = true ∧ ∀ n d c l, i ≠ .construct n d c l := by
      rcases hi with ⟨p, v, rfl⟩ | ⟨d, rfl⟩ | rfl | rfl | rfl <;> simp [transmits]
    obtain ⟨cfg, buf, rfl⟩ := exec_of_transmits hsends.1 hsends.2 h hok
    exact ⟨cfg, buf, rfl, rfl⟩
  · have hne : transmitEvents cfg buf ≠ [] := by simp [transmitEvents, latchPulse]
    exact ⟨transmitEvents cfg buf, _, _, hne, execUpdateRegisters_ready hs, rfl,
      execUpdateRegisters_ready (cfg := cfg) (buf := buf) hs, rfl⟩

/-- Settles O54: the invariant gives the history, whose last register file is both SENT and on the outputs. -/
theorem outputsShowSent : Obligations.OutputsShowSent := by
  intro s cfg buf chips hi hs hchips
  obtain ⟨hlegal, -, history, sent, hlen, htrace, -⟩ := hi.history hs
  refine ⟨sent, hlen sent (by simp), ?_, ?_⟩
  · rw [State.sentBits_ready hs, htrace, sentBits_traceOf hlegal]
  · simp only [State.chips, hs, htrace]
    exact outputs_traceOf _ hlegal history sent hlen chips hchips

end Sys2Proof.Machine

/-! ## The encoding: header words, transactions and the byte transport (30_encoding.md) -/

namespace Sys2Proof.Machine

/-! ### The fields of a header word -/

/-- PIN is the LEN field read as two's complement (R84, R85). -/
theorem pinField_eq_toInt (w : Word) : pinField w = (lenField w).toInt := rfl

/-- The two's complement reading of the low half, by its top bit (R85). -/
theorem pinField_eq_ite (w : Word) :
    pinField w = if w.getLsbD 15 then ((lenField w).toNat : Int) - 65536 else (lenField w).toNat := by
  have hmsb : (lenField w).msb = w.getLsbD 15 := by simp [lenField, BitVec.msb_eq_getLsbD_last]
  rw [pinField_eq_toInt, BitVec.toInt_eq_msb_cond, hmsb]
  rfl

theorem encodablePin_iff (p : Int) : encodablePin p = true ↔ -32768 ≤ p ∧ p ≤ 32767 := by simp [encodablePin]

/-- Every PIN field holds an index the assembler accepts (R85, R93). -/
theorem encodablePin_pinField (w : Word) : encodablePin (pinField w) = true := by
  have hlow := BitVec.le_toInt (lenField w)
  have hhigh := BitVec.toInt_lt (x := lenField w)
  rw [encodablePin_iff, pinField_eq_toInt]
  omega

/-- An index the assembler accepts is read back from its field (R85, R93). -/
theorem toInt_ofInt_of_encodablePin {p : Int} (h : encodablePin p = true) : (BitVec.ofInt 16 p).toInt = p := by
  obtain ⟨hlow, hhigh⟩ := (encodablePin_iff p).1 h
  exact BitVec.toInt_ofInt_eq_self (by decide) (by omega) (by omega)

/-- PIN of a word whose low half holds an index the assembler accepts (R85, R93). -/
theorem pinField_of_ofInt {w : Word} {p : Int} (hlow : w.extractLsb' 0 16 = BitVec.ofInt 16 p)
    (h : encodablePin p = true) : pinField w = p := by
  rw [pinField, hlow, toInt_ofInt_of_encodablePin h]

/-- The field of an index read from a word is the field it was read from. -/
theorem ofInt_pinField (w : Word) : BitVec.ofInt 16 (pinField w) = lenField w := BitVec.ofInt_toInt

/-- A length counted from a LEN field is put back into it (R84). -/
theorem ofNat_of_eq_lenField {w : Word} {n : Nat} (h : n = (lenField w).toNat) : BitVec.ofNat 16 n = lenField w := by
  rw [h, BitVec.ofNat_toNat, BitVec.setWidth_eq]

/-! ### A word put together again from its fixed bits and its fields -/

theorem lowHalf_lenField (w : Word) : lowHalf (lenField w) = w &&& 0x0000FFFF#32 := by
  apply BitVec.eq_of_toNat_eq
  have hmod : w.toNat &&& 65535 = w.toNat % 65536 := Nat.and_two_pow_sub_one_eq_mod w.toNat 16
  simp [lowHalf, lenField]
  omega

theorem valueBit_valueField (w : Word) : valueBit (valueField w) = w &&& 0x00010000#32 := by
  rw [show 0x00010000#32 = BitVec.twoPow 32 16 from rfl, BitVec.and_twoPow, ← valueField]
  cases valueField w <;> rfl

/-- A row without free fields selects its pattern alone (R88). -/
theorem eq_of_mask_all {w k : Word} (h : w &&& 0xFFFFFFFF#32 = k) : k = w := by
  rw [← h]; exact BitVec.and_allOnes

/-- A word whose row frees the low half is its pattern with that half (R82, R88). -/
theorem or_lowHalf_of_mask {w k : Word} (h : w &&& 0xFFFF0000#32 = k) : k ||| lowHalf (lenField w) = w := by
  rw [← h, lowHalf_lenField, ← BitVec.and_or_distrib_left]
  exact BitVec.and_allOnes

/-- A word whose row frees V and the low half is its pattern with those fields (R82, R83, R88). -/
theorem or_valueBit_or_lowHalf_of_mask {w k : Word} (h : w &&& 0xFFFE0000#32 = k) :
    k ||| valueBit (valueField w) ||| lowHalf (lenField w) = w := by
  rw [← h, valueBit_valueField, lowHalf_lenField, ← BitVec.and_or_distrib_left, ← BitVec.and_or_distrib_left]
  exact BitVec.and_allOnes

/-! ### The command of a transaction -/

/-- The transaction of a word that a row selects, by what the row says of its payload (R88, R90). -/
theorem decodeTransaction_of_mask {op : Opcode} {pattern mask w : Word} {payload : List Byte} {i : Instr}
    (hrow : ⟨op, pattern, mask⟩ ∈ opcodeRows) (h : w &&& mask = pattern)
    (hlen : payload.length =
      if opcodeField pattern = 0x1#4 then 3 else if opcodeField pattern = 0x2#4 then (lenField w).toNat else 0)
    (hi : assemble op w payload = some i) : decodeTransaction w payload = .command i := by
  have hsel : OpcodeRow.selects ⟨op, pattern, mask⟩ w = true := beq_iff_eq.2 h
  exact decodeTransaction_of_selects hrow hsel (hlen.trans (payloadLen_of_selects hrow hsel).symm) hi

/-- The header word and payload of a well-formed command decode to it (R88, R93). -/
theorem decodeTransaction_encode {i : Instr} (h : wellFormed i = true) :
    decodeTransaction (encodeHeader i) (encodePayload i) = .command i := by
  cases i with
  | construct n d c l =>
    obtain ⟨hsel, hn⟩ := encodeHeader_construct n d c l
    exact decodeTransaction_of_selects (by decide) hsel (Laws.PayloadFraming.construct n d c l h)
      (by simp [assemble, encodePayload, hn])
  | setAll values =>
    obtain ⟨hsel, -⟩ := encodeHeader_setAll values
    exact decodeTransaction_of_selects (by decide) hsel (Laws.PayloadFraming.setAll values h) rfl
  | setPin p v =>
    obtain ⟨hsel, hv, hp⟩ := pinValueWord 0x40000000#32 v (BitVec.ofInt 16 p) (by decide)
    refine decodeTransaction_of_mask (op := .setPin) (by decide) hsel rfl ?_
    simp only [assemble, encodeHeader, valueField, hv, pinField_of_ofInt hp h]
  | getPin p =>
    obtain ⟨hsel, hp⟩ := encodeHeader_getPin p
    exact decodeTransaction_of_selects (by decide) hsel (Laws.PayloadFraming.getPin p h)
      (by simp only [assemble, pinField_of_ofInt hp h])
  | setNoUpdate p v =>
    obtain ⟨hsel, hv, hp⟩ := pinValueWord 0x60000000#32 v (BitVec.ofInt 16 p) (by decide)
    refine decodeTransaction_of_mask (op := .setNoUpdate) (by decide) hsel rfl ?_
    simp only [assemble, encodeHeader, valueField, hv, pinField_of_ofInt hp h]
  | getAll | setAllLow | setAllHigh | setAllLowNoUpdate | setAllHighNoUpdate | updateRegisters => rfl

/-- A command that a row assembles is well-formed, and the transaction is its encoding (R86, R88, R93). -/
theorem encode_of_assemble {r : OpcodeRow} {w : Word} {payload : List Byte} {i : Instr} (hr : r ∈ opcodeRows)
    (hsel : r.selects w = true) (hlen : payload.length = payloadLen w) (hi : assemble r.opcode w payload = some i) :
    wellFormed i = true ∧ encodeHeader i = w ∧ encodePayload i = payload := by
  have hmask : w &&& r.mask = r.pattern := beq_iff_eq.1 hsel
  rw [payloadLen_of_selects hr hsel] at hlen
  obtain ⟨op, pattern, mask⟩ := r
  cases op with
  | construct =>
    obtain ⟨rfl, rfl⟩ : pattern = 0x10000000#32 ∧ mask = 0xFFFF0000#32 := by simpa [opcodeRows] using hr
    obtain ⟨d, c, l, rfl⟩ := List.length_eq_three.1 hlen
    cases hi
    exact ⟨rfl, or_lowHalf_of_mask hmask, rfl⟩
  | setAll =>
    obtain ⟨rfl, rfl⟩ : pattern = 0x20000000#32 ∧ mask = 0xFFFF0000#32 := by simpa [opcodeRows] using hr
    have hlen : payload.length = (lenField w).toNat := hlen
    cases hi
    refine ⟨?_, ?_, rfl⟩
    · have := (lenField w).isLt
      rw [wellFormed, encodablePayload, decide_eq_true_iff]
      omega
    · rw [encodeHeader, ofNat_of_eq_lenField hlen]
      exact or_lowHalf_of_mask hmask
  | setPin | setNoUpdate =>
    obtain ⟨rfl, rfl⟩ : pattern = _ ∧ mask = 0xFFFE0000#32 := by simpa [opcodeRows] using hr
    cases hi
    refine ⟨encodablePin_pinField w, ?_, (List.length_eq_zero_iff.1 hlen).symm⟩
    rw [encodeHeader, ofInt_pinField]
    exact or_valueBit_or_lowHalf_of_mask hmask
  | getPin =>
    obtain ⟨rfl, rfl⟩ : pattern = 0x50000000#32 ∧ mask = 0xFFFF0000#32 := by simpa [opcodeRows] using hr
    cases hi
    refine ⟨encodablePin_pinField w, ?_, (List.length_eq_zero_iff.1 hlen).symm⟩
    rw [encodeHeader, ofInt_pinField]
    exact or_lowHalf_of_mask hmask
  | getAll | setAllLow | setAllHigh | setAllLowNoUpdate | setAllHighNoUpdate | updateRegisters =>
    obtain ⟨rfl, rfl⟩ : pattern = _ ∧ mask = 0xFFFFFFFF#32 := by simpa [opcodeRows] using hr
    cases hi
    exact ⟨rfl, eq_of_mask_all hmask, (List.length_eq_zero_iff.1 hlen).symm⟩

/-- A transaction decodes to exactly the well-formed command whose encoding it is (R88, R93). -/
theorem decodeTransaction_eq_command_iff {w : Word} {payload : List Byte} {i : Instr} :
    decodeTransaction w payload = .command i ↔
      wellFormed i = true ∧ encodeHeader i = w ∧ encodePayload i = payload := by
  constructor
  · intro h
    obtain ⟨hlen, r, hr, hsel, hi⟩ := decodeTransaction_command h
    exact encode_of_assemble hr hsel hlen hi
  · rintro ⟨h, rfl, rfl⟩
    exact decodeTransaction_encode h

/-- A byte stream decodes to a command when it begins with a transaction of that command (R81, R90, R91). -/
theorem decode_eq_command_iff {bytes rest : List Byte} {i : Instr} :
    decode bytes = .command i rest ↔
      ∃ w payload, bytes = headerBytes w ++ payload ++ rest ∧ decodeTransaction w payload = .command i := by
  constructor
  · intro h
    cases hrecv : receive bytes with
    | none => simp [decode, hrecv] at h
    | some found =>
      obtain ⟨w, payload, tail⟩ := found
      obtain ⟨-, hbytes⟩ := receive_spec hrecv
      simp only [decode, hrecv] at h
      cases hd : decodeTransaction w payload with
      | command j =>
        simp only [hd, StreamHead.command.injEq] at h
        obtain ⟨rfl, rfl⟩ := h
        exact ⟨w, payload, hbytes, hd⟩
      | illegal c => simp [hd] at h
      | misframed => simp [hd] at h
  · rintro ⟨w, payload, rfl, hd⟩
    have hlen := (decodeTransaction_command hd).1
    simp only [decode, receive_headerBytes w payload rest hlen, hd]

/-! ### Words by their reserved fields -/

theorem reservedOpcode_iff (opc : BitVec 4) :
    reservedOpcode opc = true ↔ opc ∈ [0x0#4, 0xC#4, 0xD#4, 0xE#4, 0xF#4] := by
  simp [reservedOpcode, or_assoc]

/-- A transaction with a reserved opcode is illegal, whatever its other bits (R89). -/
theorem decodeTransaction_reservedOpcode {w : Word} {payload : List Byte} (hlen : payload.length = payloadLen w)
    (h : opcodeField w ∈ [0x0#4, 0xC#4, 0xD#4, 0xE#4, 0xF#4]) :
    decodeTransaction w payload = .illegal .reservedOpcode := by
  have hres : reservedOpcode (opcodeField w) = true := (reservedOpcode_iff _).2 h
  simp [decodeTransaction, hlen, selectCommand, hres]

/-- A transaction of the right length whose word a row selects is a command (R88, R90). -/
theorem exists_command_of_selects {q : OpcodeRow} (hq : q ∈ opcodeRows) {w : Word} (hsel : q.selects w = true)
    {payload : List Byte} (hlen : payload.length = payloadLen w) : ∃ i, decodeTransaction w payload = .command i := by
  cases hd : decodeTransaction w payload with
  | command i => exact ⟨i, rfl⟩
  | misframed => exact absurd hd (decodeTransaction_ne_misframed hlen)
  | illegal c =>
    simp only [decodeTransaction, if_pos hlen, selectCommand_of_selects hq hsel] at hd
    split at hd <;> cases hd

/-- At most one row of the table selects a word (R88). -/
theorem length_selecting_le_one (w : Word) : (opcodeRows.filter fun r => w &&& r.mask == r.pattern).length ≤ 1 := by
  have hnodup : (opcodeRows.filter fun r => w &&& r.mask == r.pattern).Nodup := List.Nodup.filter _ (by decide)
  rw [← List.toFinset_card_of_nodup hnodup, Finset.card_le_one]
  intro r hr q hq
  obtain ⟨hr, hrw⟩ := List.mem_filter.1 (List.mem_toFinset.1 hr)
  obtain ⟨hq, hqw⟩ := List.mem_filter.1 (List.mem_toFinset.1 hq)
  exact selects_unique hr hq hrw hqw

/-- Each of these opcodes has a row, and the reserved bits of the row are those from `k` to 27 (R82, R88). -/
def ReservedFrom (k : Nat) (opcodes : List (BitVec 4)) : Prop :=
  ∀ opc ∈ opcodes, ∃ q ∈ opcodeRows, q.pattern.extractLsb' 28 4 = opc ∧ q.mask = BitVec.allOnes 32 <<< k ∧
    q.pattern = (q.pattern.extractLsb' 28 4).setWidth 32 <<< 28

theorem reservedFrom_zero : ReservedFrom 0 [0x3#4, 0x7#4, 0x8#4, 0x9#4, 0xA#4, 0xB#4] := by
  unfold ReservedFrom; decide

theorem reservedFrom_sixteen : ReservedFrom 16 [0x1#4, 0x2#4, 0x5#4] := by unfold ReservedFrom; decide

theorem reservedFrom_seventeen : ReservedFrom 17 [0x4#4, 0x6#4] := by unfold ReservedFrom; decide

/-- A word with the opcode of a row is a command where the row's reserved bits are all 0, and has a reserved bit set
where they are not (R89). -/
theorem decodeTransaction_of_reservedFrom {k : Nat} {opcodes : List (BitVec 4)} (hk : k ≤ 28)
    (hrows : ReservedFrom k opcodes) {w : Word} {payload : List Byte} (hlen : payload.length = payloadLen w)
    (hopc : opcodeField w ∈ opcodes) :
    (w.extractLsb' k (28 - k) ≠ 0#(28 - k) → decodeTransaction w payload = .illegal .reservedBit) ∧
    (w.extractLsb' k (28 - k) = 0#(28 - k) → ∃ i, decodeTransaction w payload = .command i) := by
  obtain ⟨q, hq, hop, hmask, hpattern⟩ := hrows _ hopc
  have hsel := selects_iff_fields w k hk q hmask hpattern
  constructor
  · intro hne
    exact decodeTransaction_reservedBit hq hop.symm (fun hs => hne (hsel.1 hs).2) hlen
  · intro hzero
    exact exists_command_of_selects hq (hsel.2 ⟨hop.symm, hzero⟩) hlen

/-- Every opcode is reserved or has a row (R82, R89). -/
theorem opcode_cases (opc : BitVec 4) :
    opc ∈ [0x0#4, 0xC#4, 0xD#4, 0xE#4, 0xF#4] ∨ opc ∈ [0x3#4, 0x7#4, 0x8#4, 0x9#4, 0xA#4, 0xB#4] ∨
      opc ∈ [0x1#4, 0x2#4, 0x5#4] ∨ opc ∈ [0x4#4, 0x6#4] := by
  revert opc; decide

/-! ### A step on a transaction -/

/-- A transaction is misframed exactly where its payload is not the length its header announces (R90). -/
theorem decodeTransaction_eq_misframed_iff {w : Word} {payload : List Byte} :
    decodeTransaction w payload = .misframed ↔ payload.length ≠ payloadLen w := by
  constructor
  · intro hd hlen
    exact decodeTransaction_ne_misframed hlen hd
  · intro hne
    rw [decodeTransaction, if_neg hne]

/-- An illegal header word ends with IllegalCommand in the state that has taken the transaction (R89, R90). -/
theorem step_of_illegal {s : State} {w : Word} {payload : List Byte} {rest : List HostInput} {c : IllegalCause}
    (hport : s.port = .transaction w payload :: rest) (hd : decodeTransaction w payload = .illegal c) :
    step s = .next (raise (.illegalCommand c) { s with port := rest }) := by
  simp only [step, fetch, hport, hd, fail]

/-- A misframed transaction is the one fault (R90). -/
theorem step_of_misframed {s : State} {w : Word} {payload : List Byte} {rest : List HostInput}
    (hport : s.port = .transaction w payload :: rest) (hd : decodeTransaction w payload = .misframed) :
    step s = .fault .payloadNotAsFramed := by
  simp only [step, fetch, hport, hd]

/-- A step answers a next state, or it faults on a misframed transaction. -/
theorem step_next_or_misframed (s : State) :
    (∃ t, step s = .next t) ∨
      ∃ w payload rest, s.port = .transaction w payload :: rest ∧ decodeTransaction w payload = .misframed ∧
        step s = .fault .payloadNotAsFramed := by
  rcases step_cases s with ⟨-, hs⟩ | ⟨rest, -, hs⟩ | ⟨w, p, rest, i, -, -, hs⟩ | ⟨w, p, rest, c, -, -, hs⟩ | hmis
  · exact .inl ⟨_, hs⟩
  · exact .inl ⟨_, hs⟩
  · obtain ⟨t, ht, -⟩ := exec_cases i { s with port := rest }
    exact .inl ⟨t, hs.trans ht⟩
  · exact .inl ⟨_, hs⟩
  · exact .inr hmis

/-- A command leaves the port alone (R80). -/
theorem exec_port (i : Instr) (s : State) : ∃ t, exec i s = .next t ∧ t.port = s.port := by
  obtain ⟨t, ht, ⟨e, rfl⟩ | ⟨data, u, ⟨-, -, -, hport, -⟩, rfl⟩⟩ := exec_ends i s
  · exact ⟨_, ht, rfl⟩
  · exact ⟨_, ht, hport⟩

/-! ### The data of a response -/

/-- The data a command answers when it completes on `s`, by the command (R92). -/
inductive AnswersData (s : State) : Instr → List Byte → Prop where
  /-- GET answers one bit in one byte. -/
  | get (p : Int) (v : Level) : AnswersData s (.getPin p) [bitByte v]
  /-- GETALL answers BUF. -/
  | getAll {cfg : ChannelConfig} {buf : List Byte} (hs : s.phase = .ready cfg buf) : AnswersData s .getAll buf
  /-- Every other command answers no data. -/
  | none {i : Instr} (hall : i ≠ .getAll) (hget : ∀ p, i ≠ .getPin p) : AnswersData s i []

/-- Every command ends with an error and no data, or with the data of its kind; either way it appends one response
(R92, R185). -/
theorem exec_answers (i : Instr) (s : State) :
    ∃ t, exec i s = .next t ∧
      ((∃ e, t = raise e s) ∨
        ∃ data u, AnswersData s i data ∧ t = respondOk data u ∧ u.responses = s.responses) := by
  obtain ⟨t, ht, -⟩ := exec_cases i s
  refine ⟨t, ht, ?_⟩
  rcases exec_effect ht with he | ⟨n, d, c, l, rfl, -, -, hu⟩ | ⟨cfg, buf, hs, ⟨hsends, -, buf', hu⟩ | ⟨rfl, hu⟩ |
    ⟨p, rfl, hu⟩ | ⟨-, hall, hget, buf', hu⟩⟩
  · exact .inl he
  · exact .inr ⟨_, _, .none (by simp) (by simp), hu, rfl⟩
  · refine .inr ⟨_, _, .none ?_ ?_, hu, rfl⟩
    · rintro rfl; cases hsends
    · rintro p rfl; cases hsends
  · exact .inr ⟨_, _, .getAll hs, hu, rfl⟩
  · exact .inr ⟨_, _, .get p _, hu, rfl⟩
  · exact .inr ⟨_, _, .none hall hget, hu, rfl⟩

/-! ### The obligations -/

/-- Settles O6: the encoding is a header word and a payload, which decode to the command. -/
theorem decodeOfEncodeIsTheCommand : Obligations.DecodeOfEncodeIsTheCommand := fun _ _ h =>
  decode_eq_command_iff.2 ⟨_, _, rfl, decodeTransaction_encode h⟩

/-- Settles O7: the stream begins with a transaction of the command, and that transaction is its encoding. -/
theorem encodeOfDecodeIsTheStream : Obligations.EncodeOfDecodeIsTheStream := by
  intro bytes rest i h
  obtain ⟨w, payload, rfl, hd⟩ := decode_eq_command_iff.1 h
  obtain ⟨hwf, rfl, rfl⟩ := decodeTransaction_eq_command_iff.1 hd
  exact ⟨hwf, rfl⟩

/-- Settles O2: each row by `decodeTransaction_of_mask`; two rows that select one word are the same row. -/
theorem headerWordSelectsItsRow : Obligations.HeaderWordSelectsItsRow := by
  refine ⟨?construct, ?setAll, ?getAll, ?setPin, ?getPin, ?setNoUpdate, ?setAllLow, ?setAllHigh, ?setAllLowNoUpdate,
    ?setAllHighNoUpdate, ?updateRegisters, ?unique⟩
  case construct => exact fun w d c l h => decodeTransaction_of_mask (op := .construct) (by decide) h rfl rfl
  case setAll => exact fun w values h hlen => decodeTransaction_of_mask (op := .setAll) (by decide) h hlen rfl
  case getAll => exact fun w h => decodeTransaction_of_mask (op := .getAll) (by decide) h rfl rfl
  case setPin => exact fun w h => decodeTransaction_of_mask (op := .setPin) (by decide) h rfl rfl
  case getPin => exact fun w h => decodeTransaction_of_mask (op := .getPin) (by decide) h rfl rfl
  case setNoUpdate => exact fun w h => decodeTransaction_of_mask (op := .setNoUpdate) (by decide) h rfl rfl
  case setAllLow => exact fun w h => decodeTransaction_of_mask (op := .setAllLow) (by decide) h rfl rfl
  case setAllHigh => exact fun w h => decodeTransaction_of_mask (op := .setAllHigh) (by decide) h rfl rfl
  case setAllLowNoUpdate => exact fun w h => decodeTransaction_of_mask (op := .setAllLowNoUpdate) (by decide) h rfl rfl
  case setAllHighNoUpdate =>
    exact fun w h => decodeTransaction_of_mask (op := .setAllHighNoUpdate) (by decide) h rfl rfl
  case updateRegisters => exact fun w h => decodeTransaction_of_mask (op := .updateRegisters) (by decide) h rfl rfl
  case unique => exact length_selecting_le_one

/-- Settles O3: the opcode is reserved, or one of the three formats, whose reserved bits decide. -/
theorem illegalWordEndsWithIllegalCommand : Obligations.IllegalWordEndsWithIllegalCommand := by
  intro s w payload rest hport hlen reserved reservedBit
  refine ⟨fun hres => ?_, fun hbit => ?_, fun hres hbit => ?_⟩
  · exact step_of_illegal hport (decodeTransaction_reservedOpcode hlen hres)
  · rcases hbit with ⟨hopc, hne⟩ | ⟨hopc, hne⟩ | ⟨hopc, hne⟩
    · exact step_of_illegal hport ((decodeTransaction_of_reservedFrom (by decide) reservedFrom_zero hlen hopc).1 hne)
    · exact step_of_illegal hport ((decodeTransaction_of_reservedFrom (by decide) reservedFrom_sixteen hlen hopc).1 hne)
    · exact step_of_illegal hport
        ((decodeTransaction_of_reservedFrom (by decide) reservedFrom_seventeen hlen hopc).1 hne)
  · obtain ⟨hzero, hsixteen, hseventeen⟩ := by simpa only [reservedBit, not_or, not_and, not_not] using hbit
    rcases opcode_cases (w.extractLsb' 28 4) with hopc | hopc | hopc | hopc
    · exact absurd hopc hres
    · exact (decodeTransaction_of_reservedFrom (by decide) reservedFrom_zero hlen hopc).2 (hzero hopc)
    · exact (decodeTransaction_of_reservedFrom (by decide) reservedFrom_sixteen hlen hopc).2 (hsixteen hopc)
    · exact (decodeTransaction_of_reservedFrom (by decide) reservedFrom_seventeen hlen hopc).2 (hseventeen hopc)

/-- Settles O4: a framed transaction is a command or an illegal word, and either step takes it from the port. -/
theorem payloadLengthEndsTheTransaction : Obligations.PayloadLengthEndsTheTransaction := by
  refine ⟨fun w => rfl, receive_headerBytes, fun s w payload rest hport hlen => ?_⟩
  cases hd : decodeTransaction w payload with
  | command i =>
    rw [stepRunsTheDecodedCommand s w payload rest i hport hd]
    exact exec_port i { s with port := rest }
  | illegal c => exact ⟨_, step_of_illegal hport hd, rfl⟩
  | misframed => exact absurd hd (decodeTransaction_ne_misframed hlen)

/-- Settles O5: the field's own reading and bounds; the word of GET holds the index of a valid pin. -/
theorem pinFieldIsTwosComplement : Obligations.PinFieldIsTwosComplement := by
  refine ⟨pinField_eq_ite, fun w => (encodablePin_iff _).1 (encodablePin_pinField w), fun cfg p hneg => ?_,
    fun cfg p hlegal hvalid => ?_⟩
  · rw [validPin, decide_eq_false_iff_not]
    omega
  · obtain ⟨hlow, hhigh⟩ := (validPin_iff cfg p).1 hvalid
    have hmax : cfg.length ≤ 4096 := hlegal.2.1
    have hp : encodablePin p = true := (encodablePin_iff p).2 (by omega)
    exact ⟨_, pinField_of_ofInt (encodeHeader_getPin p).2 hp⟩

/-- Settles O11: a step answers a next state unless the transaction is misframed, which is a matter of its length. -/
theorem stepStopsOnlyOnMisframedTransaction : Obligations.StepStopsOnlyOnMisframedTransaction := by
  intro s
  refine ⟨fun r hr => ?_, fun ⟨f, hf⟩ => ?_, fun ⟨w, payload, rest, hport, hne⟩ => ?_⟩
  · rcases step_next_or_misframed s with ⟨t, ht⟩ | ⟨w, payload, rest, -, -, hs⟩
    · cases ht.symm.trans hr
    · cases hs.symm.trans hr
  · rcases step_next_or_misframed s with ⟨t, ht⟩ | ⟨w, payload, rest, hport, hd, -⟩
    · cases ht.symm.trans hf
    · exact ⟨w, payload, rest, hport, decodeTransaction_eq_misframed_iff.1 hd⟩
  · exact ⟨_, step_of_misframed hport (decodeTransaction_eq_misframed_iff.2 hne)⟩

/-- Settles O50: an error answers nothing, and the three cases of `AnswersData` are the three of R92. -/
theorem responseDataByCommand : Obligations.ResponseDataByCommand := by
  intro i s hlegal
  obtain ⟨t, ht, ⟨e, rfl⟩ | ⟨data, u, hdata, rfl, hresp⟩⟩ := exec_answers i s
  · exact ⟨_, [], ht, rfl, fun _ => rfl, fun hok => absurd hok (error_code_ne e),
      fun hok => absurd hok (error_code_ne e), fun _ _ => rfl⟩
  · refine ⟨_, data, ht, by rw [respondOk_responses, hresp]; rfl, fun hne => absurd rfl hne, fun _ => ?_, fun _ => ?_,
      fun hget hall => ?_⟩
    · rintro ⟨p, rfl⟩
      cases hdata with
      | get _ v => cases v <;> simp [bitByte_eq_ite]
      | none _ hget => exact absurd rfl (hget p)
    · rintro rfl cfg buf hs
      cases hdata with
      | getAll hs' =>
        cases hs.symm.trans hs'
        rw [hs] at hlegal
        exact ⟨hlegal.2, rfl⟩
      | none hall _ => exact absurd rfl hall
    · cases hdata with
      | get p _ => exact absurd rfl (hget p)
      | getAll _ => exact absurd rfl hall
      | none _ _ => rfl

/-- Settles O1: seven closed examples, evaluated. -/
theorem encodingExamplesEncodeAndDecode : Obligations.EncodingExamplesEncodeAndDecode := by
  unfold Obligations.EncodingExamplesEncodeAndDecode
  decide

end Sys2Proof.Machine

/-! ## CONSTRUCT (40_construct.md) -/

namespace Sys2Proof.Machine

/-! ### The words of a command's row -/

/-- A word with the opcode of a row that the row does not select has a reserved bit set (R89). -/
theorem reservedBitsAreIllegal_of_row {q : OpcodeRow} (hq : q ∈ opcodeRows) :
    ReservedBitsAreIllegal (q.pattern.extractLsb' 28 4) q.pattern q.mask := by
  intro w payload hopc hne hlen
  exact decodeTransaction_reservedBit hq hopc (fun hsel => hne (beq_iff_eq.1 hsel)) hlen

/-! ### The checks -/

/-- A second CONSTRUCT ends with AlreadyConstructed, whatever its operands (R110). -/
theorem exec_construct_ready {s : State} {cfg : ChannelConfig} {buf : List Byte} (h : s.phase = .ready cfg buf)
    (n : BitVec 16) (d c l : PinId) :
    exec (.construct n d c l) s = .next (raise (.configuration .alreadyConstructed) s) := by
  simp only [exec, execConstruct, h, fail]

/-- The checks of the operands, in their order, and then the construction (R110). -/
theorem exec_construct_unconstructed {s : State} (h : s.phase = .unconstructed) (n : BitVec 16) (d c l : PinId) :
    exec (.construct n d c l) s =
      if n.toNat < 1 then .next (raise (.configuration .lengthZero) s)
      else if 4096 < n.toNat then .next (raise (.configuration .lengthTooLarge) s)
      else if pinsCollide d c l then .next (raise (.configuration .pinCollision) s)
      else .next (respondOk [] (construct { n := n, data := d, clock := c, latch := l } s)) := by
  simp only [exec, execConstruct, h]
  rfl

theorem pinsCollide_iff (d c l : PinId) : pinsCollide d c l = true ↔ d = c ∨ d = l ∨ c = l := by
  simp [pinsCollide, or_assoc]

/-- Operands that make a legal configuration pass every check (R23, R110). -/
theorem exec_construct_legal {s : State} {n : BitVec 16} {d c l : PinId} (h : s.phase = .unconstructed)
    (hlegal : ({ n := n, data := d, clock := c, latch := l } : ChannelConfig).Legal) :
    exec (.construct n d c l) s =
      .next (respondOk [] (construct { n := n, data := d, clock := c, latch := l } s)) := by
  obtain ⟨(hmin : 1 ≤ n.toNat), (hmax : n.toNat ≤ 4096), hdc, hdl, hcl⟩ := hlegal
  have hpins : ¬ pinsCollide d c l = true := by simp [pinsCollide_iff, hdc, hdl, hcl]
  rw [exec_construct_unconstructed h, if_neg (Nat.not_lt.2 hmin), if_neg (Nat.not_lt.2 hmax), if_neg hpins]

/-! ### The construction -/

/-- The set-up and the transmission of zeros leave the three lines as low outputs (R111, R112). -/
theorem construct_lines {cfg : ChannelConfig} (hlegal : cfg.Legal) (s : State) :
    (construct cfg s).lines =
      { data := { mode := .output, level := .driven false }
        clock := { mode := .output, level := .driven false }
        latch := { mode := .output, level := .driven false } } := by
  have hpos : cfg.length = cfg.length - 1 + 1 := (Nat.sub_add_cancel hlegal.1).symm
  rw [construct, storeAndTransmit_lines, emitAll_lines, lines_setupEvents hlegal, fill, hpos, List.replicate_succ,
    lines_transmitEvents hlegal]
  rfl

theorem construct_trace (cfg : ChannelConfig) (s : State) :
    (construct cfg s).trace = s.trace ++ setupEvents cfg ++ transmitEvents cfg (fill cfg 0x00#8) := rfl

/-- The stream of zero bytes is zero bits (R54). -/
theorem stream_replicate_zero (k : Nat) : stream (List.replicate k 0x00#8) = List.replicate (8 * k) false := by
  induction k with
  | zero => rfl
  | succ k ih =>
    rw [List.replicate_succ, stream_cons, ih, show bitsMsbFirst 0x00#8 = List.replicate 8 false from rfl,
      List.replicate_append_replicate, Nat.mul_succ]

/-- A transmission of zeros clocks `8*N` zero bits and pulses LATCH (R112, R155). -/
theorem transmitEvents_fill_zero (cfg : ChannelConfig) :
    transmitEvents cfg (fill cfg 0x00#8) =
      (List.replicate (8 * cfg.length) (clockBit cfg false)).flatten ++ latchPulse cfg := by
  rw [transmitEvents, shiftPhase_eq_stream, fill, stream_replicate_zero, List.flatMap_def, List.map_replicate]

theorem readBit_fill_zero (cfg : ChannelConfig) (i b : Nat) : readBit (fill cfg 0x00#8) i b = false := by
  by_cases hi : i < cfg.length <;> simp [readBit, readByte, fill, hi]

/-- A CONSTRUCT of a block that has emitted nothing begins its history with the transmission of zeros (R30, R110). -/
theorem construct_trace_of_blank {s : State} (cfg : ChannelConfig) (hblank : s.trace = []) :
    (construct cfg s).trace = traceOf cfg ([] ++ [fill cfg 0x00#8]) := by
  rw [construct_trace, traceOf_append, hblank]
  simp [traceOf]

/-- After the first CONSTRUCT the outputs of a correctly wired chain show zeros, whatever the chips held (R113). -/
theorem outputs_construct {s : State} {cfg : ChannelConfig} (hlegal : cfg.Legal) (hblank : s.trace = [])
    {chips : List Chip} (hchips : chips.length = cfg.length) :
    outputs ((construct cfg s).chips chips) = fill cfg 0x00#8 := by
  simp only [State.chips, construct_phase, construct_trace_of_blank cfg hblank]
  exact outputs_traceOf _ hlegal [] _ (by simp) chips hchips

/-! ### The obligations -/

/-- Settles O22: the row of CONSTRUCT, then its checks one by one; where all pass, the effect of `construct`, of which
only the lines are not by definition. -/
theorem constructInitialisesTheBlock : Obligations.ConstructInitialisesTheBlock := by
  refine ⟨fun w d c l h => decodeTransaction_of_mask (op := .construct) (by decide) h rfl rfl,
    reservedBitsAreIllegal_of_row (q := ⟨.construct, 0x10000000#32, 0xFFFF0000#32⟩) (by decide), ?_⟩
  intro n d c l s
  refine ⟨?already, ?zero, ?large, ?collision, ?success⟩
  case already => exact fun cfg buf hs => exec_construct_ready hs n d c l
  case zero =>
    rintro hs rfl
    exact exec_construct_unconstructed hs _ d c l
  case large =>
    intro hs hlarge
    rw [exec_construct_unconstructed hs, if_neg (by omega), if_pos hlarge]
    rfl
  case collision =>
    intro hs hmin hmax hpins
    rw [exec_construct_unconstructed hs, if_neg (Nat.not_lt.2 hmin), if_neg (Nat.not_lt.2 hmax),
      if_pos ((pinsCollide_iff d c l).2 hpins)]
    rfl
  case success =>
    intro hs hmin hmax hdc hdl hcl cfg zeros
    have hlegal : cfg.Legal := ⟨hmin, hmax, hdc, hdl, hcl⟩
    rw [exec_construct_legal hs hlegal, ← construct_lines hlegal s]
    rfl

/-- Settles O23: TRACE is the set-up and the transmission of zeros, whose bits are all the clocked bit 0. -/
theorem constructEmitsItsEventCount : Obligations.ConstructEmitsItsEventCount := by
  intro n d c l s hs hmin hmax hdc hdl hcl
  let cfg : ChannelConfig := { n := n, data := d, clock := c, latch := l }
  have hlegal : cfg.Legal := ⟨hmin, hmax, hdc, hdl, hcl⟩
  refine ⟨_, exec_construct_legal hs hlegal, ?_, ?_, fun r => ?_⟩
  · rw [respondOk_trace, construct_trace, transmitEvents_fill_zero]
    simp only [List.append_assoc]
    rfl
  · rw [respondOk_trace, construct_trace, List.length_append, List.length_append, length_setupEvents,
      length_transmitEvents, length_fill, Nat.add_assoc, Nat.add_assoc]
    rfl
  · rw [respondOk_lines, construct_lines hlegal]
    cases r <;> rfl

/-- Settles O24: the invariant gives a block that has emitted nothing, so the zeros are all the chain was sent; GETALL
and GET read the BUF of zeros. -/
theorem afterConstructEverythingIsZero : Obligations.AfterConstructEverythingIsZero := by
  intro n d c l s hi hs hmin hmax hdc hdl hcl
  let cfg : ChannelConfig := { n := n, data := d, clock := c, latch := l }
  have hlegal : cfg.Legal := ⟨hmin, hmax, hdc, hdl, hcl⟩
  refine ⟨_, exec_construct_legal hs hlegal, fun chips hchips => ?_, execGetAll_ready rfl, fun p hp hlt => ?_⟩
  · exact outputs_construct hlegal (hi.blank hs).1 hchips
  · have hvalid : validPin cfg p = true := (validPin_iff cfg p).2 ⟨hp, hlt⟩
    rw [execGetPin_answers (buf := fill cfg 0x00#8) rfl hvalid, readBit_fill_zero]
    rfl

/-- Settles O58: every event of the set-up configures a line or lowers it, and the chips act on rising edges only. -/
theorem setupMovesNoChip : Obligations.SetupMovesNoChip := fun _ _ _ _ init o => chips_setupEvents init o

end Sys2Proof.Machine

/-! ## The whole-buffer commands (41_bulk_access.md) -/

namespace Sys2Proof.Machine

/-! ### The checks -/

/-- Every command but CONSTRUCT ends with NotConstructed while UNCONSTRUCTED (R187). -/
theorem exec_unconstructed {i : Instr} {s : State} (hne : ∀ n d c l, i ≠ .construct n d c l)
    (h : s.phase = .unconstructed) : exec i s = .next (raise .notConstructed s) := by
  cases i with
  | construct n d c l => exact absurd rfl (hne n d c l)
  | _ => exact whenReady_unconstructed h _

/-- SETALL of another length than CFG.N on a constructed block (R120, R186). -/
theorem execSetAll_wrongLength {s : State} {cfg : ChannelConfig} {buf values : List Byte}
    (h : s.phase = .ready cfg buf) (hlen : values.length ≠ cfg.length) :
    exec (.setAll values) s = .next (raise .sizeMismatch s) := by
  simp only [exec, execSetAll, whenReady_ready h, hlen, if_false, fail]

/-- A SETALL that completes has stored its payload and transmitted it (R120). -/
theorem execSetAll_completed {s t : State} {values : List Byte} (h : exec (.setAll values) s = .next t)
    (hok : t.status.last = 0x00#8) : ∃ cfg, t = respondOk [] (storeAndTransmit cfg values s) := by
  cases hs : s.phase with
  | unconstructed =>
    rw [exec_unconstructed (by simp) hs] at h
    cases h
    exact absurd hok (error_code_ne .notConstructed)
  | ready cfg buf =>
    by_cases hlen : values.length = cfg.length
    · rw [execSetAll_ready hs hlen] at h
      cases h
      exact ⟨cfg, rfl⟩
    · rw [execSetAll_wrongLength hs hlen] at h
      cases h
      exact absurd hok (error_code_ne .sizeMismatch)

/-! ### The answer -/

/-- The bytes of BUF read one by one, BUF[0] first, are BUF (R122). -/
theorem map_readByte_range (buf : List Byte) : ((List.range buf.length).map fun i => readByte buf i) = buf := by
  apply List.ext_getElem
  · simp
  · intro i _ hi
    simp [readByte, hi]

/-- A command keeps every response sent before it (R65). -/
theorem exec_responses_prefix {i : Instr} {s t : State} (h : exec i s = .next t) : s.responses <+: t.responses := by
  obtain ⟨u, hu, -, -, -, ⟨data, hresp⟩, -⟩ := frameOfEveryCommand i s
  cases hu.symm.trans h
  exact ⟨_, hresp.symm⟩

/-! ### The obligations -/

/-- Settles O25: the row of SETALL, its two checks, and the store and transmission where both pass. -/
theorem setAllReplacesBufAndTransmits : Obligations.SetAllReplacesBufAndTransmits := by
  refine ⟨fun w values h hlen => decodeTransaction_of_mask (op := .setAll) (by decide) h hlen rfl,
    reservedBitsAreIllegal_of_row (q := ⟨.setAll, 0x20000000#32, 0xFFFF0000#32⟩) (by decide), fun s values => ?_⟩
  exact ⟨exec_unconstructed (by simp), fun cfg buf hs => ⟨execSetAll_wrongLength hs, execSetAll_ready hs⟩⟩

/-- Settles O26: the row of GETALL, its phase check, and BUF read byte by byte; later commands only append responses. -/
theorem getAllAnswersBuf : Obligations.GetAllAnswersBuf := by
  refine ⟨decodeTransaction_encode (i := .getAll) rfl,
    reservedBitsAreIllegal_of_row (q := ⟨.getAll, 0x30000000#32, 0xFFFFFFFF#32⟩) (by decide), fun s => ?_⟩
  refine ⟨exec_unconstructed (by simp), fun cfg buf hs hbuf => ⟨?_, fun i t u _ hu => exec_responses_prefix hu⟩⟩
  rw [← hbuf, map_readByte_range]
  exact execGetAll_ready hs

/-- Settles O27: a SETALL that completes leaves its payload in BUF, which GETALL answers. -/
theorem setAllGetAllRoundTrip : Obligations.SetAllGetAllRoundTrip := by
  intro s t values h hok
  obtain ⟨cfg, rfl⟩ := execSetAll_completed h hok
  exact execGetAll_ready rfl

end Sys2Proof.Machine

/-! ## The pin commands (42_pin_access.md) -/

namespace Sys2Proof.Machine

/-! ### The range check -/

theorem validPin_eq_false {cfg : ChannelConfig} {p : Int} (h : p < 0 ∨ 8 * (cfg.length : Int) ≤ p) :
    validPin cfg p = false := by
  rw [validPin, decide_eq_false_iff_not]
  omega

/-- A command that makes the phase check and then the range check ends with RangeError on an index out of range, with
nothing else done (R184). -/
theorem whenReady_whenValidPin_outOfRange {s : State} {cfg : ChannelConfig} {buf : List Byte} {p : Int}
    (h : s.phase = .ready cfg buf) (hp : p < 0 ∨ 8 * (cfg.length : Int) ≤ p)
    (body : ChannelConfig → List Byte → Result) :
    whenReady s (fun cfg buf => whenValidPin cfg p s (body cfg buf)) = .next (raise .range s) := by
  rw [whenReady_ready h, whenValidPin, validPin_eq_false hp]
  rfl

/-! ### One pin written, then any pin read -/

/-- SET and SETNOUPDATE of a valid pin complete, and leave BUF with that pin written (R130, R134). -/
theorem exec_pinWrite_phase {s : State} {cfg : ChannelConfig} {buf : List Byte} {p : Int} {v : Level} {i : Instr}
    (h : s.phase = .ready cfg buf) (hp : validPin cfg p = true) (hi : i = .setPin p v ∨ i = .setNoUpdate p v) :
    ∃ t, exec i s = .next t ∧ t.phase = .ready cfg (writePin buf p v) := by
  rcases hi with rfl | rfl
  · exact ⟨_, execSetPin_valid h hp, rfl⟩
  · exact ⟨_, execSetNoUpdate_valid h hp, rfl⟩

/-! ### A run of pin changes -/

/-- BUF after a run of pin changes, the first change first. -/
def writePins (buf : List Byte) (changes : List (Int × Level)) : List Byte :=
  changes.foldl (fun b x => writePin b x.1 x.2) buf

/-- BUF after each change of a run: the register files a run of SET commands transmits. -/
def bufsOfChanges (buf : List Byte) : List (Int × Level) → List (List Byte)
  | [] => []
  | x :: rest => writePin buf x.1 x.2 :: bufsOfChanges (writePin buf x.1 x.2) rest

theorem length_bufsOfChanges (buf : List Byte) (changes : List (Int × Level)) :
    (bufsOfChanges buf changes).length = changes.length := by
  induction changes generalizing buf with
  | nil => rfl
  | cons x rest ih => rw [bufsOfChanges, List.length_cons, List.length_cons, ih]

/-- The register file sent last holds every change of the run. -/
theorem getLast?_bufsOfChanges (buf : List Byte) {changes : List (Int × Level)} (hne : changes ≠ []) :
    (bufsOfChanges buf changes).getLast? = some (writePins buf changes) := by
  induction changes generalizing buf with
  | nil => exact absurd rfl hne
  | cons x rest ih =>
    cases rest with
    | nil => rfl
    | cons y rest => exact ih (writePin buf x.1 x.2) (List.cons_ne_nil y rest)

/-- A first command that answers a next state hands that state to the rest of the run (R60). -/
theorem runCommands_cons {i : Instr} {rest : List Instr} {s t : State} (h : exec i s = .next t) :
    runCommands (i :: rest) s = runCommands rest t := by
  rw [runCommands, h]

theorem runCommands_append {is js : List Instr} {s t : State} (h : runCommands is s = .next t) :
    runCommands (is ++ js) s = runCommands js t := by
  induction is generalizing s with
  | nil => cases h; rfl
  | cons i is ih =>
    obtain ⟨u, hu, -⟩ := exec_cases i s
    rw [runCommands_cons hu] at h
    rw [List.cons_append, runCommands_cons hu, ih h]

section

variable {cfg : ChannelConfig}

/-- A run of SET commands writes every change and transmits BUF after each (R130). -/
theorem runCommands_setPin {s : State} {buf : List Byte} {changes : List (Int × Level)}
    (hs : s.phase = .ready cfg buf) (hvalid : ∀ x ∈ changes, validPin cfg x.1 = true) :
    ∃ t, runCommands (changes.map fun x => .setPin x.1 x.2) s = .next t ∧
      t.phase = .ready cfg (writePins buf changes) ∧
      t.trace = s.trace ++ (bufsOfChanges buf changes).flatMap (transmitEvents cfg) := by
  induction changes generalizing s buf with
  | nil => exact ⟨s, rfl, hs, by simp [bufsOfChanges]⟩
  | cons x rest ih =>
    obtain ⟨hx, hrest⟩ := List.forall_mem_cons.1 hvalid
    obtain ⟨t, ht, hphase, htrace⟩ :=
      ih (s := respondOk [] (storeAndTransmit cfg (writePin buf x.1 x.2) s)) rfl hrest
    refine ⟨t, ?_, hphase, ?_⟩
    · rw [List.map_cons, runCommands_cons (execSetPin_valid hs hx), ht]
    · rw [htrace, respondOk_trace, storeAndTransmit_trace, List.append_assoc]
      rfl

/-- A run of SETNOUPDATE commands writes every change and emits nothing (R134). -/
theorem runCommands_setNoUpdate {s : State} {buf : List Byte} {changes : List (Int × Level)}
    (hs : s.phase = .ready cfg buf) (hvalid : ∀ x ∈ changes, validPin cfg x.1 = true) :
    ∃ t, runCommands (changes.map fun x => .setNoUpdate x.1 x.2) s = .next t ∧
      t.phase = .ready cfg (writePins buf changes) ∧ t.trace = s.trace := by
  induction changes generalizing s buf with
  | nil => exact ⟨s, rfl, hs, rfl⟩
  | cons x rest ih =>
    obtain ⟨hx, hrest⟩ := List.forall_mem_cons.1 hvalid
    obtain ⟨t, ht, hphase, htrace⟩ :=
      ih (s := respondOk [] (setBuf cfg (writePin buf x.1 x.2) s)) rfl hrest
    exact ⟨t, by rw [List.map_cons, runCommands_cons (execSetNoUpdate_valid hs hx), ht], hphase, htrace⟩

/-- Transmissions after the history of a block make SENT the stream of the last register file among them (R161). -/
theorem sentBits_of_transmissions {s t : State} {buf buf' sent : List Byte} {sents : List (List Byte)} (hi : s.Inv)
    (hs : s.phase = .ready cfg buf) (ht : t.phase = .ready cfg buf')
    (htrace : t.trace = s.trace ++ sents.flatMap (transmitEvents cfg)) (hlast : sents.getLast? = some sent) :
    t.sentBits = some (stream sent) := by
  obtain ⟨hlegal, -, history, before, -, hsTrace, -⟩ := hi.history hs
  obtain ⟨init, rfl⟩ := List.getLast?_eq_some_iff.1 hlast
  have hhistory : t.trace = traceOf cfg ((history ++ [before] ++ init) ++ [sent]) := by
    rw [htrace, hsTrace]
    simp [traceOf]
  rw [State.sentBits_ready ht, hhistory, sentBits_traceOf hlegal]

end

/-! ### The obligations -/

/-- Settles O29: the row of SET, its two checks, and `writePin` of BUF stored and transmitted where both pass. -/
theorem setWritesOnePinAndTransmits : Obligations.SetWritesOnePinAndTransmits := by
  refine ⟨fun w h => decodeTransaction_of_mask (op := .setPin) (by decide) h rfl rfl,
    reservedBitsAreIllegal_of_row (q := ⟨.setPin, 0x40000000#32, 0xFFFE0000#32⟩) (by decide), fun s p v => ?_⟩
  refine ⟨exec_unconstructed (by simp), fun cfg buf hs hbuf =>
    ⟨fun hout => whenReady_whenValidPin_outOfRange hs hout _, fun hp hlt => ?_⟩⟩
  exact ⟨writePin buf p v, length_writePin buf p v, fun i b _ _ => readBit_writePin buf v i b hp (by rwa [hbuf]),
    execSetPin_valid hs ((validPin_iff cfg p).2 ⟨hp, hlt⟩)⟩

/-- Settles O30: the row of GET, its two checks, and the bit of BUF answered where both pass. -/
theorem getAnswersTheBit : Obligations.GetAnswersTheBit := by
  refine ⟨fun w h => decodeTransaction_of_mask (op := .getPin) (by decide) h rfl rfl,
    reservedBitsAreIllegal_of_row (q := ⟨.getPin, 0x50000000#32, 0xFFFF0000#32⟩) (by decide), fun s p => ?_⟩
  exact ⟨exec_unconstructed (by simp), fun cfg buf hs =>
    ⟨fun hout => whenReady_whenValidPin_outOfRange hs hout _,
      fun hp hlt _ => execGetPin_answers hs ((validPin_iff cfg p).2 ⟨hp, hlt⟩)⟩⟩

/-- Settles O31: the row of SETNOUPDATE, the checks of SET, and `writePin` of BUF stored where both pass. -/
theorem setNoUpdateWritesOnePin : Obligations.SetNoUpdateWritesOnePin := by
  refine ⟨fun w h => decodeTransaction_of_mask (op := .setNoUpdate) (by decide) h rfl rfl,
    reservedBitsAreIllegal_of_row (q := ⟨.setNoUpdate, 0x60000000#32, 0xFFFE0000#32⟩) (by decide), fun s p v => ?_⟩
  refine ⟨exec_unconstructed (by simp), fun cfg buf hs hbuf =>
    ⟨fun hout => whenReady_whenValidPin_outOfRange hs hout _, fun hp hlt => ?_⟩⟩
  exact ⟨writePin buf p v, length_writePin buf p v, fun i b _ _ => readBit_writePin buf v i b hp (by rwa [hbuf]),
    execSetNoUpdate_valid hs ((validPin_iff cfg p).2 ⟨hp, hlt⟩)⟩

/-- Settles O32: either command leaves `writePin` of BUF, whose pins `readPin_writePin` tells apart. -/
theorem pinsAreIndependent : Obligations.PinsAreIndependent := by
  intro s cfg buf p v i hs hbuf hp hlt hi
  have hvalid : validPin cfg p = true := (validPin_iff cfg p).2 ⟨hp, hlt⟩
  have hbyte : byteOf p < buf.length := hbuf ▸ byteOf_lt cfg p hvalid
  obtain ⟨t, ht, htphase⟩ := exec_pinWrite_phase hs hvalid hi
  refine ⟨t, ht, ?_, fun q hq hqlt hne => ?_⟩
  · rw [execGetPin_valid htphase hvalid, readPin_writePin buf p p v hp hp hbyte, if_pos rfl, bitByte_eq_ite]
    rfl
  · have hqvalid : validPin cfg q = true := (validPin_iff cfg q).2 ⟨hq, hqlt⟩
    refine ⟨_, execGetPin_valid hs hqvalid, ?_⟩
    rw [execGetPin_valid htphase hqvalid, readPin_writePin buf p q v hp hq hbyte, if_neg hne]
    rfl

/-- Settles O34: both runs leave `writePins` of BUF; the SETs have transmitted `bufsOfChanges`, which ends with it, and
UPDATEREGISTERS has transmitted it alone. -/
theorem batchEqualsRunOfSets : Obligations.BatchEqualsRunOfSets := by
  intro s cfg buf changes hi hs hne hrange
  have hvalid : ∀ x ∈ changes, validPin cfg x.1 = true := fun x hx => (validPin_iff cfg x.1).2 (hrange x hx)
  obtain ⟨t, ht, htphase, httrace⟩ := runCommands_setPin hs hvalid
  obtain ⟨m, hm, hmphase, hmtrace⟩ := runCommands_setNoUpdate hs hvalid
  let u : State := respondOk [] (transmit cfg (writePins buf changes) m)
  have hu : runCommands ((changes.map fun x => .setNoUpdate x.1 x.2) ++ [.updateRegisters]) s = .next u := by
    rw [runCommands_append hm, runCommands_cons (execUpdateRegisters_ready hmphase)]
    rfl
  have hutrace : u.trace = s.trace ++ transmitEvents cfg (writePins buf changes) := by
    rw [respondOk_trace, transmit_trace, hmtrace]
  have hlast := getLast?_bufsOfChanges buf hne
  exact ⟨t, u, ht, hu, writePins buf changes, bufsOfChanges buf changes, htphase, hmphase,
    sentBits_of_transmissions hi hs htphase httrace hlast,
    sentBits_of_transmissions (sents := [writePins buf changes]) hi hs hmphase
      (by rw [hutrace, List.flatMap_singleton]) rfl,
    length_bufsOfChanges buf changes, hlast, httrace, hutrace⟩

end Sys2Proof.Machine

/-! ## The fill commands (43_fill.md) -/

namespace Sys2Proof.Machine

/-- A filled register file is CFG.N copies of one byte (R140 to R143). -/
theorem fill_eq_replicate (cfg : ChannelConfig) (v : Byte) : fill cfg v = List.replicate cfg.n.toNat v := rfl

section

variable {s : State} {cfg : ChannelConfig} {buf : List Byte}

/-- A fill command that transmits stores CFG.N copies of its byte and sends them, whatever BUF was (R140, R141). -/
theorem fillAll_transmitting (h : s.phase = .ready cfg buf) (v : Byte) :
    fillAll v true s = .next ((transmit cfg (List.replicate cfg.n.toNat v)
      { s with phase := .ready cfg (List.replicate cfg.n.toNat v) }).answered []) := by
  rw [fillAll_ready h, if_pos rfl, fill_eq_replicate, respondOk_eq_answered, storeAndTransmit, setBuf]

/-- A fill command that does not transmit stores CFG.N copies of its byte and emits nothing (R142, R143). -/
theorem fillAll_storing (h : s.phase = .ready cfg buf) (v : Byte) :
    fillAll v false s = .next ({ s with phase := .ready cfg (List.replicate cfg.n.toNat v) }.answered []) := by
  rw [fillAll_ready h, if_neg Bool.false_ne_true, fill_eq_replicate, respondOk_eq_answered, setBuf]

end

/-! ### The obligations -/

/-- Settles O35: the row of SETALLLOW, its phase check, and zeros stored and transmitted. -/
theorem setAllLowClearsAndTransmits : Obligations.SetAllLowClearsAndTransmits := by
  refine ⟨decodeTransaction_encode (i := .setAllLow) rfl,
    reservedBitsAreIllegal_of_row (q := ⟨.setAllLow, 0x70000000#32, 0xFFFFFFFF#32⟩) (by decide), fun s => ?_⟩
  exact ⟨exec_unconstructed (by simp), fun cfg buf hs => fillAll_transmitting hs 0x00#8⟩

/-- Settles O36: the row of SETALLHIGH, its phase check, and ones stored and transmitted. -/
theorem setAllHighSetsAndTransmits : Obligations.SetAllHighSetsAndTransmits := by
  refine ⟨decodeTransaction_encode (i := .setAllHigh) rfl,
    reservedBitsAreIllegal_of_row (q := ⟨.setAllHigh, 0x80000000#32, 0xFFFFFFFF#32⟩) (by decide), fun s => ?_⟩
  exact ⟨exec_unconstructed (by simp), fun cfg buf hs => fillAll_transmitting hs 0xFF#8⟩

/-- Settles O37: the row of SETALLLOWNOUPDATE, its phase check, and zeros stored without a transmission. -/
theorem setAllLowNoUpdateClears : Obligations.SetAllLowNoUpdateClears := by
  refine ⟨decodeTransaction_encode (i := .setAllLowNoUpdate) rfl,
    reservedBitsAreIllegal_of_row (q := ⟨.setAllLowNoUpdate, 0x90000000#32, 0xFFFFFFFF#32⟩) (by decide), fun s => ?_⟩
  exact ⟨exec_unconstructed (by simp), fun cfg buf hs => fillAll_storing hs 0x00#8⟩

/-- Settles O38: the row of SETALLHIGHNOUPDATE, its phase check, and ones stored without a transmission, since this
hardware's parameter is false; with the parameter true the command is SETALLHIGH by definition. -/
theorem setAllHighNoUpdateSets : Obligations.SetAllHighNoUpdateSets := by
  refine ⟨decodeTransaction_encode (i := .setAllHighNoUpdate) rfl,
    reservedBitsAreIllegal_of_row (q := ⟨.setAllHighNoUpdate, 0xA0000000#32, 0xFFFFFFFF#32⟩) (by decide), fun s => ?_⟩
  exact ⟨exec_unconstructed (by simp), fun cfg buf hs => fillAll_storing hs 0xFF#8, rfl, rfl⟩

end Sys2Proof.Machine

/-! ## Transmission, SENT and the downstream chips (44_transmit.md) -/

namespace Sys2Proof.Machine

/-! ### The events of a transmission -/

/-- A byte is shifted out as its eight clocked bits, the most significant first (R154). -/
theorem shiftOutByte_eq_flatMap (cfg : ChannelConfig) (x : Byte) :
    shiftOutByte cfg x = (bitsMsbFirst x).flatMap (clockBit cfg) := rfl

/-- Clocked bits write DATA and CLOCK only (R153). -/
theorem mem_clockBits {cfg : ChannelConfig} {bits : List Level} {e : LineEvent}
    (he : e ∈ bits.flatMap (clockBit cfg)) : (∃ b, e = .write cfg.data b) ∨ ∃ b, e = .write cfg.clock b := by
  obtain ⟨bit, -, he⟩ := List.mem_flatMap.1 he
  simp only [clockBit, List.mem_cons, List.not_mem_nil, or_false] at he
  rcases he with rfl | rfl | rfl
  · exact .inl ⟨bit, rfl⟩
  · exact .inr ⟨true, rfl⟩
  · exact .inr ⟨false, rfl⟩

/-- Clocked bits leave the LATCH line alone (R153, R156). -/
theorem latch_clockBits {cfg : ChannelConfig} (h : cfg.Legal) (l : Lines) (bits : List Level) :
    ((bits.flatMap (clockBit cfg)).foldl (Lines.apply cfg) l).latch = l.latch := by
  induction bits generalizing l with
  | nil => rfl
  | cons b bits ih => rw [List.flatMap_cons, List.foldl_append, ih, lines_clockBit h]

/-- A transmission clocks out the bits of BUF by index, then pulses LATCH (R155). -/
theorem transmitEvents_eq_map (cfg : ChannelConfig) (buf : List Byte) :
    transmitEvents cfg buf =
      ((List.range (8 * buf.length)).flatMap fun k =>
        clockBit cfg (readBit buf (buf.length - 1 - k / 8) (7 - k % 8))) ++ latchPulse cfg := by
  rw [transmitEvents, shiftPhase_eq_stream, stream_eq_map, List.flatMap_map]

/-- The events of a transmission before its latch pulse write LATCH nowhere (R156). -/
theorem take_transmitEvents_ne_latch {cfg : ChannelConfig} (h : cfg.Legal) {buf : List Byte} {k : Nat}
    (hk : k + 2 ≤ (transmitEvents cfg buf).length) :
    ∀ e ∈ (transmitEvents cfg buf).take k, ∀ b, e ≠ .write cfg.latch b := by
  rw [take_transmitEvents cfg buf k hk]
  exact fun e he => shiftPhase_ne_latch h buf e (List.mem_of_mem_take he)

/-! ### What a command does to SENT and to the chips -/

/-- A command keeps CFG legal and BUF of CFG.N bytes (R23, R24). -/
theorem exec_keeps_phase_legal {i : Instr} {s t : State} (hs : s.phase.Legal) (h : exec i s = .next t) :
    t.phase.Legal := by
  rcases exec_next_cases h with ⟨e, rfl⟩ | ⟨n, d, c, l, -, -, hlegal, rfl⟩ | ⟨cfg, buf, hp, he⟩
  · exact hs
  · exact ⟨hlegal, length_fill _ _⟩
  · obtain ⟨buf', ht, hlen⟩ := he.phase hp
    rw [hp] at hs
    rw [ht]
    exact ⟨hs.1, hlen hs.2⟩

/-- A transmitting command that completes leaves BUF at the end of the block's history of transmissions (R26, R30). -/
theorem exec_transmits_history {i : Instr} {s t : State} (hi : s.Inv) (h : exec i s = .next t)
    (hsends : transmits i = true) (hok : t.status.last = 0x00#8) :
    ∃ cfg buf history, cfg.Legal ∧ t.phase = .ready cfg buf ∧ (∀ b ∈ history ++ [buf], b.length = cfg.length) ∧
      t.trace = traceOf cfg (history ++ [buf]) := by
  have hphase := exec_keeps_phase_legal hi.1 h
  rcases exec_effect h with ⟨e, rfl⟩ | ⟨n, d, c, l, -, hs, hlegal, rfl⟩ | ⟨cfg, buf, hs, ⟨-, -, buf', rfl⟩ | ⟨rfl, -⟩ |
    ⟨p, rfl, -⟩ | ⟨hquiet, -⟩⟩
  · exact absurd hok (error_code_ne e)
  · exact ⟨_, _, [], hlegal, rfl, by simp, construct_trace_of_blank _ (hi.blank hs).1⟩
  · obtain ⟨hlegal, -, history, last, hlen, htrace, -⟩ := hi.history hs
    refine ⟨cfg, buf', history ++ [last], hlegal, rfl, ?_, ?_⟩
    · exact List.forall_mem_append.2 ⟨hlen, List.forall_mem_singleton.2 hphase.2⟩
    · rw [respondOk_trace, storeAndTransmit_trace, htrace, ← traceOf_append]
  · cases hsends
  · cases hsends
  · cases hquiet.symm.trans hsends

/-- Storing BUF leaves SENT as it was (R160). -/
theorem sentBits_setBuf {s : State} {cfg : ChannelConfig} {buf : List Byte} (hs : s.phase = .ready cfg buf)
    (buf' : List Byte) : (setBuf cfg buf' s).sentBits = s.sentBits := by
  simp [State.sentBits, hs]

/-- Storing BUF leaves the chips as they were (R162). -/
theorem chips_setBuf {s : State} {cfg : ChannelConfig} {buf : List Byte} (hs : s.phase = .ready cfg buf)
    (buf' : List Byte) (chips : List Chip) : (setBuf cfg buf' s).chips chips = s.chips chips := by
  simp [State.chips, hs]

/-- A command that does not transmit leaves SENT and the chips as they were (R160, R212). -/
theorem exec_keeps_sent_of_not_transmits {i : Instr} (hi : transmits i = false) (s : State) :
    ∃ t, exec i s = .next t ∧ t.sentBits = s.sentBits ∧ ∀ chips, t.chips chips = s.chips chips := by
  obtain ⟨t, ht, ⟨e, rfl⟩ | ⟨data, rfl⟩ | ⟨-, -, cfg, buf, buf', hs, rfl⟩⟩ := exec_of_not_transmits hi s
  · exact ⟨_, ht, rfl, fun _ => rfl⟩
  · exact ⟨_, ht, rfl, fun _ => rfl⟩
  · exact ⟨_, ht, sentBits_setBuf hs buf', chips_setBuf hs buf'⟩

/-- A command that ends in an error leaves SENT as it was (R160, R185). -/
theorem exec_keeps_sent_of_error {i : Instr} {s t : State} (h : exec i s = .next t) (herr : t.status.last ≠ 0x00#8) :
    t.sentBits = s.sentBits := by
  obtain ⟨u, hu, hends⟩ := exec_ends i s
  cases hu.symm.trans h
  rcases hends with ⟨e, rfl⟩ | ⟨data, v, -, rfl⟩
  · rfl
  · exact absurd rfl herr

/-- A run of commands that do not transmit leaves SENT and the chips as they were (R212). -/
theorem runCommands_keeps_sent {is : List Instr} (his : ∀ i ∈ is, transmits i = false) (s : State) :
    ∃ t, runCommands is s = .next t ∧ t.sentBits = s.sentBits ∧ ∀ chips, t.chips chips = s.chips chips := by
  induction is generalizing s with
  | nil => exact ⟨s, rfl, rfl, fun _ => rfl⟩
  | cons i is ih =>
    obtain ⟨hi, his⟩ := List.forall_mem_cons.1 his
    obtain ⟨u, hu, husent, huchips⟩ := exec_keeps_sent_of_not_transmits hi s
    obtain ⟨t, ht, htsent, htchips⟩ := ih his u
    exact ⟨t, (runCommands_cons hu).trans ht, htsent.trans husent, fun chips => (htchips chips).trans (huchips chips)⟩

/-! ### The obligations -/

/-- Settles O39: the row of UPDATEREGISTERS, its phase check, and the transmission of BUF, which writes no other field
than LINES and TRACE. -/
theorem updateRegistersTransmitsBuf : Obligations.UpdateRegistersTransmitsBuf := by
  refine ⟨decodeTransaction_encode (i := .updateRegisters) rfl,
    reservedBitsAreIllegal_of_row (q := ⟨.updateRegisters, 0xB0000000#32, 0xFFFFFFFF#32⟩) (by decide), fun s => ?_⟩
  exact ⟨exec_unconstructed (by simp), fun cfg buf hs => ⟨execUpdateRegisters_ready hs, rfl, rfl⟩⟩

/-- Settles O40: the eight clocked bits, written out. -/
theorem shiftOutByteEmitsItsEvents : Obligations.ShiftOutByteEmitsItsEvents := fun _ _ => rfl

/-- Settles O41: the byte is eight clocked bits, and each clause is that of clocked bits; the k-th is at `3 * k`. -/
theorem shiftOutByteKeepsItsContract : Obligations.ShiftOutByteKeepsItsContract := by
  intro cfg x h
  rw [shiftOutByte_eq_flatMap]
  refine ⟨fun m => (read_clockBits h m _).1, fun k hk => ?_, length_shiftOutByte cfg x,
    fun l => latch_clockBits h l _, fun e he => mem_clockBits he⟩
  interval_cases k <;> rfl

/-- Settles O43: the events of `transmit`, which clock out the bits of the stream by index. -/
theorem transmissionEmitsTheStream : Obligations.TransmissionEmitsTheStream := by
  intro cfg buf s hbuf
  rw [← hbuf]
  exact ⟨_, transmit_trace cfg buf s, length_transmitEvents cfg buf, transmitEvents_eq_map cfg buf⟩

/-- Settles O44: the shift phase writes LATCH nowhere, and both the line and the outputs wait for such a write. -/
theorem latchMovesOnlyAtTheEnd : Obligations.LatchMovesOnlyAtTheEnd := by
  intro cfg buf h
  refine ⟨fun l k hl hk => ?_, ⟨shiftPhase cfg buf, rfl, shiftPhase_ne_latch h buf⟩, fun l => ?_, fun init o k hk => ?_⟩
  · rw [latch_level_foldl (take_transmitEvents_ne_latch h hk), hl]
  · rw [lines_setupEvents h]
  · exact outputs_watchAll init (take_transmitEvents_ne_latch h hk) o

/-- Settles O45: the invariant gives the history, and `lines_traceOf` what it leaves on the lines. -/
theorem linesRestBetweenCommands : Obligations.LinesRestBetweenCommands := by
  intro s cfg buf hi hs
  obtain ⟨hlegal, -, history, sent, hlen, htrace, hlines⟩ := hi.history hs
  rw [htrace, lines_traceOf hlegal history sent hlen] at hlines
  rw [hlines]
  refine ⟨rfl, rfl, fun r => by cases r <;> rfl, sent, hlen sent (by simp), ?_, rfl⟩
  rw [State.sentBits_ready hs, htrace, sentBits_traceOf hlegal]

/-- Settles O46: the two streams evaluated, and the SETALL, whose payload has the two bytes of the chain. -/
theorem chainOrderShowsInTheStream : Obligations.ChainOrderShowsInTheStream := by
  refine ⟨rfl, rfl, fun s cfg buf hi hs hn d hd => ?_⟩
  have hlen : d.length = cfg.length := by
    rw [ChannelConfig.length, hn]
    rcases hd with rfl | rfl <;> rfl
  exact ⟨_, execSetAll_ready hs hlen,
    sentBits_of_transmissions (buf' := d) (sents := [d]) hi hs rfl (by simp) rfl⟩

/-- Settles O51: a completed transmission ends the history with BUF; no other command, and no error, touches SENT. -/
theorem sentFollowsTheLastTransmission : Obligations.SentFollowsTheLastTransmission := by
  intro i s t hi h
  refine ⟨fun hsends hok => ?_, ?_, fun hs => by simp only [State.sentBits, hs]⟩
  · obtain ⟨cfg, buf, history, hlegal, ht, -, htrace⟩ := exec_transmits_history hi h hsends hok
    exact ⟨cfg, buf, ht, by rw [State.sentBits_ready ht, htrace, sentBits_traceOf hlegal]⟩
  · rintro (hquiet | herr)
    · obtain ⟨u, hu, husent, -⟩ := exec_keeps_sent_of_not_transmits hquiet s
      cases hu.symm.trans h
      exact husent
    · exact exec_keeps_sent_of_error h herr

/-- Settles O52: the history's last transmission is what the ghost function has committed. -/
theorem sentIsReadFromTrace : Obligations.SentIsReadFromTrace := by
  intro cfg history sent h hsent
  exact ⟨sentBits_traceOf h history sent, by rw [length_stream, hsent]⟩

/-- Settles O53: the shift phase moves the stages only, to BUF followed by the old stages, and the pulse latches them. -/
theorem transmissionCommitsTheChain : Obligations.TransmissionCommitsTheChain := by
  intro init cfg buf o h hbuf hclock hlatch
  have houtputs := outputs_transmitEvents init h o hclock hlatch buf
  refine ⟨fun k hk => outputs_watchAll init (take_transmitEvents_ne_latch h hk) o, ?_, houtputs, fun hchips => ?_⟩
  · rw [chips_transmitEvents init h o hclock hlatch, stages_latchChips, stages_shiftBits_stream]
  · rw [hchips, ← hbuf, List.take_left] at houtputs
    rw [houtputs]
    exact ⟨rfl, fun p hp _ => (readPin_eq_readBit buf hp).symm⟩

/-- Settles O55: a run that does not transmit keeps SENT and the chips, O54 ties the two, and a completed transmission
ends the history with BUF, which is then on the outputs. -/
theorem outputsAreStaleUntilATransmission : Obligations.OutputsAreStaleUntilATransmission := by
  refine ⟨fun is s chips his => ?_, fun s chips cfg buf hi hs hchips => ?_, ?_⟩
  · obtain ⟨t, ht, hsent, htchips⟩ := runCommands_keeps_sent his s
    exact ⟨t, ht, hsent, by rw [htchips]⟩
  · obtain ⟨sent, -, hsent⟩ := outputsShowSent s cfg buf chips hi hs hchips
    exact ⟨sent, hsent⟩
  · intro i s t chips cfg buf hi h hsends hok ht hchips
    obtain ⟨cfg', buf', history, hlegal, ht', hlen, htrace⟩ := exec_transmits_history hi h hsends hok
    cases ht'.symm.trans ht
    simp only [State.chips, ht, htrace]
    exact outputs_traceOf _ hlegal history buf hlen chips hchips

end Sys2Proof.Machine

/-! ## Errors (60_exceptions.md) -/

namespace Sys2Proof.Machine

/-! ### The first failing check -/

/-- How a command ends, by the first of its checks that fails: with that error and nothing else changed, or, where none
fails, with an answer after an effect that leaves the frame alone (R185, R189). -/
def EndsBy (s : State) (r : Result) : Option CommandError → Prop
  | some e => r = .next (raise e s)
  | none => ∃ data u, OnlyEmits s u ∧ r = .next (respondOk data u)

/-- One check in front of the others: it ends the command where it fails, and leaves it to the others where it passes. -/
theorem EndsBy.ite {s : State} {r : Result} {failing : Prop} [Decidable failing] {e : CommandError}
    {others : Option CommandError} (hfail : failing → r = .next (raise e s)) (hpass : ¬ failing → EndsBy s r others) :
    EndsBy s r (if failing then some e else others) := by
  split
  case isTrue h => exact hfail h
  case isFalse h => exact hpass h

theorem validPin_of_inRange {cfg : ChannelConfig} {p : Int} (h : ¬ (p < 0 ∨ 8 * (cfg.length : Int) ≤ p)) :
    validPin cfg p = true := (validPin_iff cfg p).2 (by omega)

/-- CONSTRUCT of an unconstructed block makes its checks in the order `firstError` lists them (R110, R189). -/
theorem exec_construct_endsBy {s : State} (hs : s.phase = .unconstructed) (n : BitVec 16) (d c l : PinId) :
    EndsBy s (exec (.construct n d c l) s) (firstError (.command (.construct n d c l)) .unconstructed) := by
  have hmin (hn : ¬ n = 0#16) : ¬ n.toNat < 1 := by bv_omega
  refine .ite (fun hzero => ?zero) fun hn => .ite (fun hlarge => ?large) fun hmax =>
    .ite (fun hpins => ?collision) fun hpins => ?success
  case zero => rw [exec_construct_unconstructed hs, if_pos (by simp [hzero])]
  case large => rw [exec_construct_unconstructed hs, if_neg (hmin hn), if_pos hlarge]
  case collision =>
    rw [exec_construct_unconstructed hs, if_neg (hmin hn), if_neg hmax, if_pos ((pinsCollide_iff d c l).2 hpins)]
  case success =>
    rw [← pinsCollide_iff] at hpins
    exact ⟨_, _, onlyEmits_construct _ s, exec_construct_legal hs (legal_of_checks (hmin hn) hmax hpins)⟩

/-- A fill command of a constructed block has no check of its own (R140 to R143). -/
theorem fillAll_endsBy {s : State} {cfg : ChannelConfig} {buf : List Byte} (hs : s.phase = .ready cfg buf) (v : Byte)
    (transmits : Bool) : EndsBy s (fillAll v transmits s) none := by
  refine ⟨_, _, ?_, fillAll_ready hs v transmits⟩
  cases transmits
  · exact onlyEmits_setBuf cfg _ s
  · exact onlyEmits_storeAndTransmit cfg _ s

/-- Every command of a constructed block makes the checks `firstError` lists for it (R184, R186, R189). -/
theorem exec_ready_endsBy {s : State} {cfg : ChannelConfig} {buf : List Byte} (hs : s.phase = .ready cfg buf)
    (i : Instr) : EndsBy s (exec i s) (firstError (.command i) (.ready cfg buf)) := by
  cases i with
  | construct n d c l => exact exec_construct_ready hs n d c l
  | setAll values =>
    exact .ite (execSetAll_wrongLength hs) fun hlen =>
      ⟨_, _, onlyEmits_storeAndTransmit cfg values s, execSetAll_ready hs (not_not.1 hlen)⟩
  | getAll => exact ⟨_, _, .refl s, execGetAll_ready hs⟩
  | setPin p v =>
    exact .ite (fun hout => whenReady_whenValidPin_outOfRange hs hout _) fun hin =>
      ⟨_, _, onlyEmits_storeAndTransmit cfg _ s, execSetPin_valid hs (validPin_of_inRange hin)⟩
  | getPin p =>
    exact .ite (fun hout => whenReady_whenValidPin_outOfRange hs hout _) fun hin =>
      ⟨_, _, .refl s, execGetPin_valid hs (validPin_of_inRange hin)⟩
  | setNoUpdate p v =>
    exact .ite (fun hout => whenReady_whenValidPin_outOfRange hs hout _) fun hin =>
      ⟨_, _, onlyEmits_setBuf cfg _ s, execSetNoUpdate_valid hs (validPin_of_inRange hin)⟩
  | setAllLow | setAllHigh | setAllLowNoUpdate | setAllHighNoUpdate => exact fillAll_endsBy hs _ _
  | updateRegisters =>
    refine ⟨[], _, onlyEmits_storeAndTransmit cfg buf s, ?_⟩
    rw [execUpdateRegisters_ready hs, transmit_eq_storeAndTransmit hs]

/-- Every command ends by the first check that fails: the phase check first, then its own (R189). -/
theorem exec_endsBy (i : Instr) (s : State) : EndsBy s (exec i s) (firstError (.command i) s.phase) := by
  cases hs : s.phase with
  | ready cfg buf => exact exec_ready_endsBy hs i
  | unconstructed =>
    cases i with
    | construct n d c l => exact exec_construct_endsBy hs n d c l
    | _ => exact exec_unconstructed (by simp) hs

/-- A step on a framed transaction ends by the first check that fails: decode first, then the command's (R189). -/
theorem step_endsBy {s : State} {w : Word} {payload : List Byte} {rest : List HostInput}
    (hport : s.port = .transaction w payload :: rest) (hlen : payload.length = payloadLen w) :
    EndsBy { s with port := rest } (step s) (firstError (decodeTransaction w payload) s.phase) := by
  cases hd : decodeTransaction w payload with
  | command i =>
    rw [stepRunsTheDecodedCommand s w payload rest i hport hd]
    exact exec_endsBy i { s with port := rest }
  | illegal c => exact step_of_illegal hport hd
  | misframed => exact absurd hd (decodeTransaction_ne_misframed hlen)

/-- A transaction on which a step answers a next state was framed (R90). -/
theorem framed_of_step_next {s t : State} {w : Word} {payload : List Byte} {rest : List HostInput}
    (hport : s.port = .transaction w payload :: rest) (h : step s = .next t) : payload.length = payloadLen w := by
  by_contra hne
  cases (step_of_misframed hport (decodeTransaction_eq_misframed_iff.2 hne)).symm.trans h

/-! ### The obligations -/

/-- Settles O18: a reserved opcode is refused by the decoder, and the step ends as `EndsBy` says of the first error. -/
theorem firstFailingCheckDecides : Obligations.FirstFailingCheckDecides := by
  refine ⟨fun w payload hlen hopc => decodeTransaction_reservedOpcode hlen hopc, fun s w payload rest hport hlen => ?_⟩
  have hends := step_endsBy hport hlen
  cases hfirst : firstError (decodeTransaction w payload) s.phase <;> rw [hfirst] at hends
  case some e => exact hends
  case none =>
    obtain ⟨data, u, ⟨-, hstatus, -⟩, hstep⟩ := hends
    exact ⟨_, hstep, rfl, rfl, by rw [respondOk_status, hstatus, completed_errSeen]⟩

/-- Settles O17: a step that does not answer OK ends with its first error, and `raise` writes no more than STATUS and
the response. -/
theorem errorChangesOnlyStatus : Obligations.ErrorChangesOnlyStatus := by
  refine ⟨raise_eq_reported, fun s t w payload rest hport h herr => ?_⟩
  have hends := step_endsBy hport (framed_of_step_next hport h)
  cases hfirst : firstError (decodeTransaction w payload) s.phase <;> rw [hfirst] at hends
  case some e =>
    cases hends.symm.trans h
    exact ⟨rfl, rfl, rfl, rfl, error_codes_legal e, rfl⟩
  case none =>
    obtain ⟨data, u, -, hstep⟩ := hends
    cases hstep.symm.trans h
    exact absurd rfl herr

/-- Settles O19: the phase check, which every command but CONSTRUCT makes first. -/
theorem commandBeforeConstructIsRefused : Obligations.CommandBeforeConstructIsRefused := fun _ _ hs hne =>
  exec_unconstructed hne hs

/-- Settles O20: the range check, which the three pin commands make before anything else. -/
theorem pinOutOfRangeIsRangeError : Obligations.PinOutOfRangeIsRangeError := fun _ _ _ _ _ hs hout =>
  ⟨whenReady_whenValidPin_outOfRange hs hout _, whenReady_whenValidPin_outOfRange hs hout _,
    whenReady_whenValidPin_outOfRange hs hout _⟩

/-- Settles O21: the length check of SETALL, which comes before any write. -/
theorem wrongLengthIsSizeMismatch : Obligations.WrongLengthIsSizeMismatch := fun _ _ _ _ hs hlen =>
  execSetAll_wrongLength hs hlen

end Sys2Proof.Machine

/-! ## Reset (70_reset_and_hazards.md) -/

namespace Sys2Proof.Machine

/-! ### A step on an empty port, and one that takes a reset -/

theorem step_of_idle {s : State} (hport : s.port = []) : step s = .next s := by
  simp only [step, fetch, hport]

theorem step_of_reset {s : State} {rest : List HostInput} (hport : s.port = .reset :: rest) :
    step s = .next (takeReset { s with port := rest }) := by
  simp only [step, fetch, hport]

/-! ### The lines after a reset -/

/-- Every line is unset, at an unknown level (R200). -/
@[simp] theorem Lines.reset_line (r : LineRole) : Lines.reset.line r = .reset := by
  cases r <;> rfl

/-- A line the block has not driven stands at its INIT_LEVEL draw (R201). -/
theorem State.wireLevel_of_unknown {s : State} {r : LineRole} (h : (s.lines.line r).level = .unknown) :
    s.wireLevel r = Config.initLevel s.draws r := by
  simp only [State.wireLevel, h]

/-! ### The obligations -/

/-- Settles O10: the block finds nothing to take. -/
theorem stepWaitsWithNothingSent : Obligations.StepWaitsWithNothingSent := fun _ hport => step_of_idle hport

/-- Settles O12: power-on and `takeReset` write the same reset values, with every line `Line.reset`. -/
theorem resetForgetsTheBlock : Obligations.ResetForgetsTheBlock :=
  ⟨⟨rfl, rfl, rfl, Lines.reset_line⟩, fun _ _ hport => ⟨_, step_of_reset hport, rfl, rfl, rfl, Lines.reset_line⟩⟩

/-- Settles O13: `takeReset` copies the port and the responses, and leaves every line at the draw it numbers. -/
theorem resetKeepsPortAndResponses : Obligations.ResetKeepsPortAndResponses := by
  intro s rest hport
  refine ⟨_, step_of_reset hport, rfl, rfl, rfl, fun r => State.wireLevel_of_unknown ?_⟩
  rw [takeReset_lines, Lines.reset_line]
  rfl

/-- Settles O56: PHASE is UNCONSTRUCTED, STATUS holds the codes of OK, and nothing has been emitted. -/
theorem resetSatisfiesTheInvariant : Obligations.ResetSatisfiesTheInvariant :=
  ⟨trivial, Status.reset_legal, (State.recorded_unconstructed rfl).2 ⟨rfl, rfl⟩⟩

end Sys2Proof.Machine
